-- ==== Sys2Proof/Word.lean ====
section
/-! DEFINITION. The machine's one word type (00_scope.md R7, R8; the 8-bit width is the spec's decision D1, D2). -/

namespace Sys2Proof

/-- An 8-bit unsigned value: a register slot, a memory cell, an operand byte, or the program counter (R8).
Its arithmetic wraps modulo 256 (R48, R119). -/
abbrev Byte := BitVec 8

end Sys2Proof
end

