-- ==== Sys2Proof/Syntax.lean ====
section
/-! DEFINITION. The 13 instructions (30_encoding.md R66), one constructor for each row of spec/opcode_table.json. -/

namespace Sys2Proof

/-- A decoded instruction with its operand bytes. A register operand is kept as the WHOLE operand byte, 0..255: the decoder
does not look at it (R67), and a byte above 7 faults only when the register is accessed (R64, R65). -/
inductive Instr where
  /-- HLT (R161). -/
  | hlt
  /-- RET (R151). -/
  | ret
  /-- PUSH a (R100). -/
  | push (a : Byte)
  /-- POP a (R101). -/
  | pop (a : Byte)
  /-- PRN a (R160). -/
  | prn (a : Byte)
  /-- CALL a (R150). -/
  | call (a : Byte)
  /-- JMP a (R133). -/
  | jmp (a : Byte)
  /-- JEQ a (R131). -/
  | jeq (a : Byte)
  /-- JNE a (R132). -/
  | jne (a : Byte)
  /-- LDI a, imm (R110). -/
  | ldi (a imm : Byte)
  /-- ADD a, b (R111). -/
  | add (a b : Byte)
  /-- MULT a, b (R112). -/
  | mult (a b : Byte)
  /-- CMP a, b (R130). -/
  | cmp (a b : Byte)
deriving DecidableEq, Repr

end Sys2Proof
end

