-- ==== Sys2Proof/Decode.lean ====
section
/-! DEFINITION. The opcode map, the decoder and the encoder (30_encoding.md R60 to R68). -/

namespace Sys2Proof

/-- The names the opcode map is a table over (R66), one for each instruction. -/
inductive Mnemonic where
  | hlt | ret | push | pop | prn | call | jmp | jeq | jne | ldi | add | mult | cmp
deriving DecidableEq, Repr

/-- OPCODE_MAP (R6, R66): the ONE table of opcode bytes; decoder and encoder both read it.
UNVERIFIED, unsafe: the spec itself takes the values from general knowledge (G1) and fixes them by its decision D3; log entry 4. -/
def opcodeOf : Mnemonic → Byte
  | .hlt  => 0x01
  | .ret  => 0x11
  | .push => 0x45
  | .pop  => 0x46
  | .prn  => 0x47
  | .call => 0x50
  | .jmp  => 0x54
  | .jeq  => 0x55
  | .jne  => 0x56
  | .ldi  => 0x82
  | .add  => 0xA0
  | .mult => 0xA2
  | .cmp  => 0xA7

/-- The instructions the decoder's table holds (R66). -/
def allMnemonics : List Mnemonic :=
  [.hlt, .ret, .push, .pop, .prn, .call, .jmp, .jeq, .jne, .ldi, .add, .mult, .cmp]

/-- The operand count the spec's format column gives each instruction (R60, R62, R66): 0 for F0, 1 for F1, 2 for F2. -/
def operandCount : Mnemonic → Nat
  | .hlt | .ret => 0
  | .push | .pop | .prn | .call | .jmp | .jeq | .jne => 1
  | .ldi | .add | .mult | .cmp => 2

/-- Why a fetched byte is no instruction: the decoder's only refusal (R68). -/
inductive DecodeError where
  /-- The byte is none of the 13 opcodes; the cycle then raises InvalidOpcode (R171). -/
  | invalidOpcode (ir : Byte)
deriving DecidableEq, Repr

/-- The lookup of an opcode byte: all 8 bits compared, exact match, nothing else looked at (R67). -/
def decodeOpcode (ir : Byte) : Option Mnemonic :=
  allMnemonics.find? fun m => opcodeOf m == ir

/-- `K = opcode[7:6]`, the operand count field of an opcode byte (R61). -/
def operandField (ir : Byte) : Byte :=
  ir >>> 6

/-- The instruction of a mnemonic with the operand bytes it takes; an F0 instruction ignores both bytes and an F1
instruction the second (R62). -/
def instrOf (m : Mnemonic) (opA opB : Byte) : Instr :=
  match m with
  | .hlt  => .hlt
  | .ret  => .ret
  | .push => .push opA
  | .pop  => .pop opA
  | .prn  => .prn opA
  | .call => .call opA
  | .jmp  => .jmp opA
  | .jeq  => .jeq opA
  | .jne  => .jne opA
  | .ldi  => .ldi opA opB
  | .add  => .add opA opB
  | .mult => .mult opA opB
  | .cmp  => .cmp opA opB

/-- The decoder: total on the three bytes a cycle latches, one of the 13 instructions or a refusal by name (R67, R82). -/
def decode (ir opA opB : Byte) : Except DecodeError Instr :=
  match decodeOpcode ir with
  | some m => .ok (instrOf m opA opB)
  | none => .error (.invalidOpcode ir)

/-- Which instruction of the table a decoded instruction is. -/
def mnemonicOf : Instr → Mnemonic
  | .hlt => .hlt
  | .ret => .ret
  | .push _ => .push
  | .pop _ => .pop
  | .prn _ => .prn
  | .call _ => .call
  | .jmp _ => .jmp
  | .jeq _ => .jeq
  | .jne _ => .jne
  | .ldi _ _ => .ldi
  | .add _ _ => .add
  | .mult _ _ => .mult
  | .cmp _ _ => .cmp

/-- The operand bytes an instruction carries, in the order they stand in memory (R60). -/
def operandBytes : Instr → List Byte
  | .hlt => []
  | .ret => []
  | .push a => [a]
  | .pop a => [a]
  | .prn a => [a]
  | .call a => [a]
  | .jmp a => [a]
  | .jeq a => [a]
  | .jne a => [a]
  | .ldi a imm => [a, imm]
  | .add a b => [a, b]
  | .mult a b => [a, b]
  | .cmp a b => [a, b]

/-- The bytes of an instruction at ascending addresses: opcode, first operand, second operand (R43, R60). -/
def encode (i : Instr) : List Byte :=
  opcodeOf (mnemonicOf i) :: operandBytes i

/-- Byte `j` of an instruction whose bits are `w`, bit 0 the least significant bit of the first byte; bits from `nbits` up
are 0. -/
def tableByte (nbits w j : Nat) : Byte :=
  BitVec.ofNat 8 ((w % 2 ^ nbits) >>> (8 * j))

/-- What the decoder reads from an instruction given as one number, as spec/opcode_table.json numbers its bits. -/
def decodeTableWord (nbits w : Nat) : Option Instr :=
  (decode (tableByte nbits w 0) (tableByte nbits w 1) (tableByte nbits w 2)).toOption

end Sys2Proof
end

