-- ==== Sys2Proof/Config.lean ====
section
/-! DEFINITION. The implementation parameters of 00_scope.md R4 and R5. The flag codes FL_EQ, FL_GT, FL_LT of R4 stand in
Machine/Flags.lean, and the opcode map of R6 in Decode.lean. The spec leaves no value open, so there is no free value. -/

namespace Sys2Proof.Config

/-- MEMSIZE: the number of memory cells, addresses 0..255 (R4, R32). -/
abbrev memSize : Nat := 256

/-- NREGS: the number of register slots, indices 0..7 (R4, R20). -/
abbrev numRegs : Nat := 8

/-- SP_INDEX: the register slot that is the stack pointer (R4, R22). -/
abbrev spIndex : Fin numRegs := 7

/-- FL_INDEX: the register slot that is the flags register (R4, R26). -/
abbrev flIndex : Fin numRegs := 6

/-- SP_RESET: the reset value of register 7 (R4, R23). -/
def spReset : Byte := 0xF4

/-- PC_RESET: the reset value of the program counter (R5; the spec's decision D8). -/
def pcReset : Byte := 0x00

/-- MAX_IMAGE: the longest program image the load interface accepts (R5, R201). -/
def maxImage : Nat := 256

end Sys2Proof.Config
end

