-- ==== Sys2Proof/Machine/State.lean ====
section
/-! DEFINITION. The whole state of the machine (10_state.md R20 to R35), how a step can stop, and the reset state (R33). -/

namespace Sys2Proof.Machine

/-- What an unlisted memory cell reads as: memory is zero-initialised (R32, R33). -/
def unlistedByte : Byte := 0x00

/-- The 256 cells, as the (address, byte) pairs whose byte is not `unlistedByte`, addresses strictly rising. -/
abbrev Memory := List Host.Cell

/-- The canonical form of memory: addresses strictly rising, every address one of the 256 cells, no entry equal to what an
unlisted address reads as. -/
abbrev Memory.wf (m : Memory) : Prop :=
  m.Pairwise (fun p q => p.1 < q.1) ∧ ∀ p ∈ m, p.1 < Config.memSize ∧ p.2 ≠ unlistedByte

/-- The kind of a machine fault together with the information it records (60_exceptions.md R170). -/
inductive FaultCause where
  /-- `ir`, fetched from `pc`, is none of the 13 opcodes (R171). -/
  | invalidOpcode (pc ir : Byte)
  /-- The instruction `ir` at `pc` went to access a register named by a byte above 7 (R172). -/
  | invalidRegister (pc ir operand : Byte)
  /-- The source's third kind, which nothing in the instruction stream raises (R174). -/
  | unsupportedOperation
deriving DecidableEq, Repr

/-- The run-state latch (R29). Halted and faulted are absorbing; only a reset leaves them. -/
inductive RunState where
  | running
  | halted
  | faulted (cause : FaultCause)
deriving DecidableEq, Repr

/-- Everything the spec gives the machine (10_state.md R33's table). -/
structure State where
  /-- The register slots `x[0]`..`x[7]` (R20). `x[7]` is SP (R22) and `x[6]` is FL (R26): the same storage. -/
  regs : Vector Byte Config.numRegs
  /-- The program counter (R24). -/
  pc : Byte
  /-- The 256 memory cells (R32). -/
  mem : Memory
  /-- The run-state latch (R29). -/
  run : RunState
  /-- The output event stream, oldest first (R30). -/
  out : List Byte
deriving DecidableEq, Repr

/-- Why NO step exists (R10, R29). A fault of the machine itself (R170) is not one of these: it is a next state whose `run`
is `faulted` (R178). -/
inductive Fault where
  /-- Raised by `step` alone, in a state whose `run` is `halted`. Safe: the spec has no step there. -/
  | stoppedHalted
  /-- Raised by `step` alone, in a state whose `run` is `faulted cause`. Safe: the spec has no step there. -/
  | stoppedFaulted (cause : FaultCause)
deriving DecidableEq, Repr

/-- What the model gives no meaning. -/
inductive Refusal where
  /-- Raised by an arm of `exec` without a meaning; no arm is one. Safe: the machine stops. -/
  | notModelled (mnemonic : String)
  /-- Raised by `hostReset` on an image longer than 256 bytes: the load interface refuses it and no state results (R201).
  Safe: no machine is started. -/
  | imageTooLong (length : Nat)
deriving DecidableEq, Repr

/-- The register file at reset: zero but for the stack pointer (R23). -/
def resetRegs : Vector Byte Config.numRegs :=
  (Vector.replicate Config.numRegs 0x00).set Config.spIndex Config.spReset

/-- The machine right after reset with the empty program image (R33, R201); a reset with a program is `hostReset`. -/
def State.reset : State where
  regs := resetRegs
  pc := Config.pcReset
  mem := []
  run := .running
  out := []

end Sys2Proof.Machine
end

