-- ==== Sys2Proof/Machine/Ops.lean ====
section
/-! DEFINITION. The named operations over registers, memory and the latches (00_scope.md R9), the end of a cycle (40_execution_loop.md
R83 to R86), taking a fault (60_exceptions.md R178), and the host's reset (70_reset_and_hazards.md R200 to R202). -/

namespace Sys2Proof.Machine

/-! ## Memory -/

/-- The byte at address `a`: the first entry listed for `a`, else what an unlisted cell reads as. -/
def memGet : Memory → Nat → Byte
  | [], _ => unlistedByte
  | c :: rest, a => if c.1 = a then c.2 else memGet rest a

/-- Memory with no entry for address `a`. -/
def memDrop (m : Memory) (a : Nat) : Memory :=
  m.filter fun c => c.1 != a

/-- Memory with the entry `(a, v)` placed before the first entry of a higher address. -/
def memInsert : Memory → Nat → Byte → Memory
  | [], a, v => [(a, v)]
  | c :: rest, a, v => if a < c.1 then (a, v) :: c :: rest else c :: memInsert rest a v

/-- Memory with `v` at address `a`, in the canonical form. -/
def memPut (m : Memory) (a : Nat) (v : Byte) : Memory :=
  if v = unlistedByte then memDrop m a else memInsert (memDrop m a) a v

/-- `MemRead(addr, 1)` (R9, R42): total, no side effect. -/
def memRead (s : State) (addr : Byte) : Byte :=
  memGet s.mem addr.toNat

/-- `MemWrite(addr, 1, v)` (R9, R42): sets one cell and changes no other. -/
def memWrite (s : State) (addr v : Byte) : State :=
  { s with mem := memPut s.mem addr.toNat v }

/-! ## Registers, program counter, output, run latch -/

/-- `x[k]` (R9, R20). -/
def regRead (s : State) (k : Fin Config.numRegs) : Byte :=
  s.regs[k]

/-- `x[k] <- v` (R9, R20): no slot is hard-wired. -/
def regWrite (s : State) (k : Fin Config.numRegs) (v : Byte) : State :=
  { s with regs := s.regs.set k v }

/-- `SP`, an alias of `x[7]` (R20, R22). -/
def sp (s : State) : Byte :=
  regRead s Config.spIndex

/-- `FL`, an alias of `x[6]` (R20, R26). -/
def fl (s : State) : Byte :=
  regRead s Config.flIndex

/-- `pc <- t` (R9). -/
def setPc (s : State) (t : Byte) : State :=
  { s with pc := t }

/-- `emit(v)`: one output event (R9, R30, R160). -/
def emit (s : State) (v : Byte) : State :=
  { s with out := s.out ++ [v] }

/-- `run <- Halted` (R9, R29, R161). -/
def setHalted (s : State) : State :=
  { s with run := .halted }

/-! ## The stack pointer -/

/-- `x[7] <- (x[7] - 1) mod 256`, before a push writes (R48, R102). -/
def decSp (s : State) : State :=
  regWrite s Config.spIndex (sp s - 1)

/-- `x[7] <- (x[7] + 1) mod 256`, after a pop reads (R48, R102). -/
def incSp (s : State) : State :=
  regWrite s Config.spIndex (sp s + 1)

/-! ## Fetch -/

/-- The three bytes a cycle latches (R81); dead at the cycle's end (R34). -/
structure Latched where
  ir : Byte
  opA : Byte
  opB : Byte
deriving DecidableEq, Repr

/-- Fetch: the bytes at `pc`, `pc + 1` and `pc + 2` modulo 256, read whatever the opcode is (R81). -/
def fetch (s : State) : Latched where
  ir := memRead s s.pc
  opA := memRead s (s.pc + 1)
  opB := memRead s (s.pc + 2)

/-! ## Taking a fault, and the end of a cycle -/

/-- The label 1, 2 or 3 of a fault kind (R170); it appears in no register. -/
def FaultCause.code : FaultCause → Nat
  | .invalidOpcode _ _ => 1
  | .invalidRegister _ _ _ => 2
  | .unsupportedOperation => 3

/-- `raise K(info)`: `run <- Faulted(K, info)` and nothing else changes; control goes nowhere (R173, R178). There is no return
from it (R180); only `hostReset` leaves the faulted state. -/
def raiseFault (s : State) (cause : FaultCause) : State :=
  { s with run := .faulted cause }

/-- The four ways a handler ends (R83, R84). -/
inductive Completion where
  /-- It completed without writing `pc`: `jumped` is false. -/
  | advanced (s : State)
  /-- It wrote `target` to `pc`: `jumped` is true. -/
  | jumped (target : Byte) (s : State)
  /-- It stops the machine: HLT only. -/
  | halted (s : State)
  /-- It raised a fault; none of its writes take place. -/
  | raised (cause : FaultCause)
deriving DecidableEq, Repr

/-- The auto-advance `pc <- (pc + (ir >> 6) + 1) mod 256`, computed from `ir` (R85). -/
def advancePc (s : State) (ir : Byte) : State :=
  setPc s (s.pc + operandField ir + 1)

/-- The state at the end of a cycle that began in `s` with the opcode `ir` (R85, R86, R173). -/
def finishCycle (ir : Byte) (s : State) : Completion → State
  | .advanced t => advancePc t ir
  | .jumped target t => setPc t target
  | .halted t => setHalted t
  | .raised cause => raiseFault s cause

/-- The outcome of a handler of instruction `m`, whose `ir` is its opcode byte (R82, R83). -/
def complete (m : Mnemonic) (s : State) (c : Completion) : Host.Outcome State Fault Refusal :=
  .next (finishCycle (opcodeOf m) s c)

/-- The cycle of a byte that is no opcode: `raise InvalidOpcode(pc, ir)`, before any handler runs (R82, R171). -/
def execInvalidOpcode (ir : Byte) (s : State) : Host.Outcome State Fault Refusal :=
  .next (raiseFault s (.invalidOpcode s.pc ir))

/-! ## The host's side -/

/-- Bytes placed one after another from address `a` upward (R201). -/
def loadImage : Memory → Nat → List Byte → Memory
  | m, _, [] => m
  | m, a, b :: rest => loadImage (memPut m a b) (a + 1) rest

/-- Reset with program load, from any state (R200 to R202): memory zeroed, the image copied, registers, `pc`, `out` and `run` set.
An image of more than 256 bytes is refused. -/
def hostReset (image : List Byte) (s : State) : Host.Outcome State Fault Refusal :=
  if image.length ≤ Config.maxImage then
    .next { s with
      mem := loadImage [] 0 image
      regs := resetRegs
      pc := Config.pcReset
      out := []
      run := .running }
  else
    .refused (.imageTooLong image.length)

/-- Bytes written to memory from address `addr` upward, modulo 256. -/
def storeBytes (s : State) (addr : Byte) : List Byte → State
  | [] => s
  | b :: rest => storeBytes (memWrite s addr b) (addr + 1) rest

/-- The state with an instruction given as one number (`decodeTableWord` numbers its bits) placed where the next fetch reads,
and the latch at Running so that a step exists. It stands for the load of log entry 1. -/
def placeWord (s : State) (nbits w : Nat) : State :=
  storeBytes { s with run := .running } s.pc
    [tableByte nbits w 0, tableByte nbits w 1, tableByte nbits w 2]

end Sys2Proof.Machine
end

