-- ==== Sys2Proof/Machine/Operands.lean ====
section
/-! DEFINITION. Operand forms (30_encoding.md R63 to R65): the register operand with its check. An immediate is the operand byte
itself (R63) and needs no operation. -/

namespace Sys2Proof.Machine

/-- The register slot an operand byte names: the whole byte, never reduced to 3 bits (R64). -/
def regIndex (operand : Byte) : Option (Fin Config.numRegs) :=
  if h : operand.toNat < Config.numRegs then some ⟨operand.toNat, h⟩ else none

/-- The operand byte that names slot `k`, written `R0`..`R7` in assembly (R64, R72). -/
def regByte (k : Fin Config.numRegs) : Byte :=
  BitVec.ofNat 8 k.val

/-- `reg(k)`, check then name (R9): goes on with the slot, or raises InvalidRegister with `pc`, the opcode byte and the operand
byte (R64, R172). -/
def withReg (m : Mnemonic) (operand : Byte) (s : State) (go : Fin Config.numRegs → Completion) : Completion :=
  match regIndex operand with
  | some r => go r
  | none => .raised (.invalidRegister s.pc (opcodeOf m) operand)

/-- The two register operands of ADD, MULT and CMP, `a` checked before `b` (R177). -/
def withRegs (m : Mnemonic) (a b : Byte) (s : State)
    (go : Fin Config.numRegs → Fin Config.numRegs → Completion) : Completion :=
  withReg m a s fun ra => withReg m b s fun rb => go ra rb

end Sys2Proof.Machine
end

