-- ==== Sys2Proof/Machine/Alu.lean ====
section
/-! DEFINITION. The ALU (42_alu.md R113, R117 to R120) and the instructions LDI, ADD, MULT (R110 to R112). -/

namespace Sys2Proof.Machine

/-- The two operation selects the decoder issues (R113). The source's SUB and DIV selects are issued by no opcode and get no
rule (R117; the spec's decision D14). -/
inductive AluSelect where
  | add
  | mul
deriving DecidableEq, Repr

/-- The ALU's 8-bit output: the exact unsigned result, reduced modulo 256 (R113, R119, R120). -/
def alu (select : AluSelect) (u v : Byte) : Byte :=
  match select with
  | .add => BitVec.ofNat 8 (u.toNat + v.toNat)
  | .mul => BitVec.ofNat 8 (u.toNat * v.toNat)

/-- `x[ra] <- alu(x[ra], x[rb])`, both sources read before the write, operands checked first (R111, R112). -/
def aluHandler (m : Mnemonic) (select : AluSelect) (a b : Byte) (s : State) : Completion :=
  withRegs m a b s fun ra rb =>
    .advanced (regWrite s ra (alu select (regRead s ra) (regRead s rb)))

/-- LDI a, imm (R110): `x[a] <- imm`; the immediate is never checked. -/
def execLdi (a imm : Byte) (s : State) : Host.Outcome State Fault Refusal :=
  complete .ldi s (withReg .ldi a s fun r => .advanced (regWrite s r imm))

/-- ADD a, b (R111): `x[a] <- (x[a] + x[b]) mod 256`. -/
def execAdd (a b : Byte) (s : State) : Host.Outcome State Fault Refusal :=
  complete .add s (aluHandler .add .add a b s)

/-- MULT a, b (R112): `x[a] <- (x[a] * x[b]) mod 256`. -/
def execMult (a b : Byte) (s : State) : Host.Outcome State Fault Refusal :=
  complete .mult s (aluHandler .mult .mul a b s)

end Sys2Proof.Machine
end

