-- ==== Sys2Proof/Machine/CallReturn.lean ====
section
/-! DEFINITION. CALL and RET (44_call_return.md R150 to R152). -/

namespace Sys2Proof.Machine

/-- CALL a (R150): decrement SP, store the return address `pc + 2` at the new SP, jump to `x[a]`, read after the decrement. The
operand is checked before any write. -/
def execCall (a : Byte) (s : State) : Host.Outcome State Fault Refusal :=
  complete .call s <| withReg .call a s fun r =>
    let t := decSp s
    .jumped (regRead t r) (memWrite t (sp t) (s.pc + 2))

/-- RET (R151): jump to `MEM[SP]`, increment SP; no other register is written (the spec's decision D5). -/
def execRet (s : State) : Host.Outcome State Fault Refusal :=
  complete .ret s (.jumped (memRead s (sp s)) (incSp s))

end Sys2Proof.Machine
end

