-- ==== Sys2Proof/Machine/Flags.lean ====
section
/-! DEFINITION. The flags value: the codes CMP writes and the conditions JEQ and JNE test (10_state.md R26, 43_compare_branch.md R130 to
R134). No other instruction computes a flag. -/

namespace Sys2Proof.Machine

/-- FL_EQ: the code for equal (R4). -/
def flEq : Byte := 1

/-- FL_GT: the code for greater (R4). -/
def flGt : Byte := 2

/-- FL_LT: the code for less (R4). -/
def flLt : Byte := 4

/-- The code CMP records for `u` against `v`, compared as unsigned values (R130, R134). -/
def compareCode (u v : Byte) : Byte :=
  if u = v then flEq else if v.toNat < u.toNat then flGt else flLt

/-- JEQ's condition, on all 8 bits of FL (R131). -/
def jeqTaken (flags : Byte) : Bool :=
  flags == flEq

/-- JNE's condition, membership in {2, 4} on all 8 bits of FL, not "differs from 1" (R132). -/
def jneTaken (flags : Byte) : Bool :=
  flags == flGt || flags == flLt

end Sys2Proof.Machine
end

