-- ==== Sys2Proof/Machine/CompareBranch.lean ====
section
/-! DEFINITION. CMP, JEQ, JNE, JMP (43_compare_branch.md R130 to R135). -/

namespace Sys2Proof.Machine

/-- The one form of a register-indirect jump: `pc <- x[a]`, signalled as a jump (R135). -/
def jumpHandler (m : Mnemonic) (a : Byte) (s : State) : Completion :=
  withReg m a s fun r => .jumped (regRead s r) s

/-- A conditional jump: the operand is examined only when the jump is taken (R65). -/
def branchHandler (m : Mnemonic) (taken : Bool) (a : Byte) (s : State) : Completion :=
  if taken then jumpHandler m a s else .advanced s

/-- CMP a, b (R130): FL gets the code of `x[a]` against `x[b]`, both read before the write. -/
def execCmp (a b : Byte) (s : State) : Host.Outcome State Fault Refusal :=
  complete .cmp s <| withRegs .cmp a b s fun ra rb =>
    .advanced (regWrite s Config.flIndex (compareCode (regRead s ra) (regRead s rb)))

/-- JEQ a (R131): jump to `x[a]` if FL is 1. -/
def execJeq (a : Byte) (s : State) : Host.Outcome State Fault Refusal :=
  complete .jeq s (branchHandler .jeq (jeqTaken (fl s)) a s)

/-- JNE a (R132): jump to `x[a]` if FL is 2 or 4. -/
def execJne (a : Byte) (s : State) : Host.Outcome State Fault Refusal :=
  complete .jne s (branchHandler .jne (jneTaken (fl s)) a s)

/-- JMP a (R133): jump to `x[a]`. -/
def execJmp (a : Byte) (s : State) : Host.Outcome State Fault Refusal :=
  complete .jmp s (jumpHandler .jmp a s)

end Sys2Proof.Machine
end

