-- ==== Sys2Proof/Machine/OutputHalt.lean ====
section
/-! DEFINITION. PRN and HLT (45_output_halt.md R160 to R162). -/

namespace Sys2Proof.Machine

/-- PRN a (R160): one output event with the value of `x[a]`. -/
def execPrn (a : Byte) (s : State) : Host.Outcome State Fault Refusal :=
  complete .prn s (withReg .prn a s fun r => .advanced (emit s (regRead s r)))

/-- HLT (R161): `run <- Halted`; `pc` is not advanced. -/
def execHlt (s : State) : Host.Outcome State Fault Refusal :=
  complete .hlt s (.halted s)

end Sys2Proof.Machine
end

