-- ==== Sys2Proof/Machine/Stack.lean ====
section
/-! DEFINITION. PUSH and POP (41_stack.md R100 to R103). -/

namespace Sys2Proof.Machine

/-- PUSH a (R100): decrement SP, then store `x[a]`, read after the decrement, at the new SP. The operand is checked before any
write. -/
def execPush (a : Byte) (s : State) : Host.Outcome State Fault Refusal :=
  complete .push s <| withReg .push a s fun r =>
    let t := decSp s
    .advanced (memWrite t (sp t) (regRead t r))

/-- POP a (R101): `x[a] <- MEM[SP]`, then increment SP; with `a = 7` the value just loaded is incremented. -/
def execPop (a : Byte) (s : State) : Host.Outcome State Fault Refusal :=
  complete .pop s <| withReg .pop a s fun r =>
    .advanced (incSp (regWrite s r (memRead s (sp s))))

end Sys2Proof.Machine
end

