-- ==== Sys2Proof/Machine/Step.lean ====
section
/-! DEFINITION. One step, which is one whole cycle (00_scope.md R10, 40_execution_loop.md R86), and the placing of an instruction where
the next step fetches. -/

namespace Sys2Proof.Machine

/-- Fetch, decode, execute (R86). Defined only when `run = Running`: no step exists from a Halted or Faulted state (R10, R29). -/
def step (s : State) : Host.Outcome State Fault Refusal :=
  match s.run with
  | .running =>
    match decode (fetch s).ir (fetch s).opA (fetch s).opB with
    | .ok i => exec i s
    | .error (.invalidOpcode ir) => execInvalidOpcode ir s
  | .halted => .fault .stoppedHalted
  | .faulted cause => .fault (.stoppedFaulted cause)

/-- `s` with the instruction of `nbits` bits `w` stored at `pc`, where the next step fetches it. -/
def State.withFetchWord (s : State) (nbits w : Nat) : State :=
  placeWord s nbits w

end Sys2Proof.Machine
end

