-- ==== Sys2Proof/WellFormed.lean ====
section
/-! DEFINITION. Which instructions name only registers that exist. An instruction that is not well formed still decodes and
still executes: it takes the InvalidRegister fault when it accesses the missing register (30_encoding.md R64, R65). -/

namespace Sys2Proof

/-- The bytes of an instruction that are register operands (R64): `a` of every F1 and F2 instruction, `b` of ADD, MULT and
CMP; LDI's second operand is an immediate. -/
def Instr.registerOperands : Instr → List Byte
  | .hlt => []
  | .ret => []
  | .push a => [a]
  | .pop a => [a]
  | .prn a => [a]
  | .call a => [a]
  | .jmp a => [a]
  | .jeq a => [a]
  | .jne a => [a]
  | .ldi a _ => [a]
  | .add a b => [a, b]
  | .mult a b => [a, b]
  | .cmp a b => [a, b]

/-- Every register operand names a slot 0..7 (R64). -/
def Instr.wellFormed (i : Instr) : Bool :=
  i.registerOperands.all fun k => decide (k.toNat < Config.numRegs)

end Sys2Proof
end

