-- ==== Sys2Proof/Safety.lean ====
section
/-! DEFINITION. What claims about runs are stated in: what a cycle leaves alone, the invariant every step keeps, good and bad ends
(60_exceptions.md R179), and the side condition under which no address wraps (92_eei_decisions.md D2). -/

namespace Sys2Proof.Machine

/-! ## What a cycle leaves unchanged -/

/-- Every byte of memory reads in `t` as it did in `s`. -/
def SameMemory (s t : State) : Prop :=
  ∀ x : Byte, memRead t x = memRead s x

/-- Every register slot but those listed holds in `t` what it held in `s`. -/
def SameRegsExcept (written : List (Fin Config.numRegs)) (s t : State) : Prop :=
  ∀ k, k ∉ written → regRead t k = regRead s k

/-- Neither output nor the run state changed. -/
def SameOutRun (s t : State) : Prop :=
  t.out = s.out ∧ t.run = s.run

/-- The cycle of `i` in `s` raised the fault `cause`: the latch records it and every other piece of state is as it was (R173). -/
def Faults (i : Instr) (s : State) (cause : FaultCause) : Prop :=
  ∃ t, exec i s = .next t ∧ t.run = .faulted cause ∧ t.pc = s.pc ∧ t.out = s.out ∧
    SameRegsExcept [] s t ∧ SameMemory s t

/-- Everything but the program counter is as it was. -/
def OnlyPcChanged (s t : State) : Prop :=
  SameRegsExcept [] s t ∧ SameMemory s t ∧ SameOutRun s t

/-! ## What a cycle reads -/

/-- The slot an operand byte names, if it names one. -/
def namedSlot (operand : Byte) : List (Fin Config.numRegs) :=
  (regIndex operand).toList

/-- The slots an instruction reads (10_state.md R21's table). -/
def slotsRead (i : Instr) (s : State) : List (Fin Config.numRegs) :=
  match i with
  | .hlt => []
  | .ret => [Config.spIndex]
  | .push a => Config.spIndex :: namedSlot a
  | .pop _ => [Config.spIndex]
  | .prn a => namedSlot a
  | .call a => Config.spIndex :: namedSlot a
  | .jmp a => namedSlot a
  | .jeq a => Config.flIndex :: if jeqTaken (fl s) then namedSlot a else []
  | .jne a => Config.flIndex :: if jneTaken (fl s) then namedSlot a else []
  | .ldi _ _ => []
  | .add a b => namedSlot a ++ namedSlot b
  | .mult a b => namedSlot a ++ namedSlot b
  | .cmp a b => namedSlot a ++ namedSlot b

/-- The slots an instruction may write (10_state.md R21's table, R28). -/
def slotsWritten (i : Instr) : List (Fin Config.numRegs) :=
  match i with
  | .hlt => []
  | .ret => [Config.spIndex]
  | .push _ => [Config.spIndex]
  | .pop a => Config.spIndex :: namedSlot a
  | .prn _ => []
  | .call _ => [Config.spIndex]
  | .jmp _ => []
  | .jeq _ => []
  | .jne _ => []
  | .ldi a _ => namedSlot a
  | .add a _ => namedSlot a
  | .mult a _ => namedSlot a
  | .cmp _ _ => [Config.flIndex]

/-- Whether the cycle of `i` in `s`, if it does not fault, ends by the loop's auto-advance (R84, R85). -/
def autoAdvances (i : Instr) (s : State) : Bool :=
  match i with
  | .hlt => false
  | .ret => false
  | .push _ => true
  | .pop _ => true
  | .prn _ => true
  | .call _ => false
  | .jmp _ => false
  | .jeq _ => !jeqTaken (fl s)
  | .jne _ => !jneTaken (fl s)
  | .ldi _ _ => true
  | .add _ _ => true
  | .mult _ _ => true
  | .cmp _ _ => true

/-! ## Ends of a run -/

/-- The normal end of a run (R179). -/
def GoodEnd (s : State) : Prop :=
  s.run = .halted

/-- A run that went wrong, with the cause the host is told (R178, R179). -/
def BadEnd (s : State) (cause : FaultCause) : Prop :=
  s.run = .faulted cause

/-- No step is enabled (R29, R179). -/
def Quiescent (s : State) : Prop :=
  ∀ t, step s ≠ .next t

/-! ## The invariant -/

/-- What the run-state latch says is true of the machine: a halted core stands at an HLT byte; a faulted core stands at the
instruction it reports, with the opcode and the operand byte it reports, and the report has a cause (R161, R171 to R174,
R178). -/
def LatchTruthful (s : State) : Prop :=
  match s.run with
  | .running => True
  | .halted => decodeOpcode (memRead s s.pc) = some .hlt
  | .faulted (.invalidOpcode p ir) =>
    p = s.pc ∧ ir = memRead s s.pc ∧ decodeOpcode ir = none
  | .faulted (.invalidRegister p ir operand) =>
    p = s.pc ∧ ir = memRead s s.pc ∧ (decodeOpcode ir).isSome ∧ Config.numRegs ≤ operand.toNat ∧
      (operand = memRead s (s.pc + 1) ∨ operand = memRead s (s.pc + 2))
  | .faulted .unsupportedOperation => False

/-- The invariant of the machine: memory is in its canonical form and the latch is truthful. -/
def Inv (s : State) : Prop :=
  Memory.wf s.mem ∧ LatchTruthful s

/-! ## The side condition of decision D2 -/

/-- No address computation of a cycle that starts in `s` leaves 0..255: `pc <= 252`, a push has `x[7] >= 1` and a pop has
`x[7] <= 254` (D2). -/
def NoAddressWrap (s : State) : Prop :=
  s.pc.toNat ≤ 252 ∧ 1 ≤ (sp s).toNat ∧ (sp s).toNat ≤ 254

end Sys2Proof.Machine
end

