-- ==== Sys2Proof/Certificates/Slice0/Obligations.lean ====
section
/-! DEFINITION. The statements for the provers, from the numbered rules of spec/. Register operands are written `regByte k`, the
byte that names slot `k`; a byte `x` with `7 < x.toNat` names no slot. Program counters are stated as numbers modulo 256. -/

open Sys2Proof Sys2Proof.Machine

/-! ## One instruction each: encoding, effect on every operand, frame, faults -/

/-- R110, whole: encoding, `x[a] <- imm` for every slot and immediate, nothing else changed but `pc`, InvalidRegister above 7. -/
def Obligations.LdiLoadsImmediate : Prop :=
  (∀ a imm : Byte, decode 0x82 a imm = .ok (.ldi a imm) ∧ encode (.ldi a imm) = [0x82, a, imm]) ∧
  (∀ (s : State) (a : Fin 8) (imm : Byte), ∃ t, exec (.ldi (regByte a) imm) s = .next t ∧
    regRead t a = imm ∧ SameRegsExcept [a] s t ∧ t.pc.toNat = (s.pc.toNat + 3) % 256 ∧
    SameMemory s t ∧ SameOutRun s t) ∧
  (∀ (s : State) (a imm : Byte), 7 < a.toNat →
    Faults (.ldi a imm) s (.invalidRegister s.pc 0x82 a))

/-- R111, whole: encoding, the sum modulo 256 for every pair of slots, frame, InvalidRegister with `a` checked first. -/
def Obligations.AddWrapsModulo256 : Prop :=
  (∀ a b : Byte, decode 0xA0 a b = .ok (.add a b) ∧ encode (.add a b) = [0xA0, a, b]) ∧
  (∀ (s : State) (a b : Fin 8), ∃ t, exec (.add (regByte a) (regByte b)) s = .next t ∧
    (regRead t a).toNat = ((regRead s a).toNat + (regRead s b).toNat) % 256 ∧
    SameRegsExcept [a] s t ∧ t.pc.toNat = (s.pc.toNat + 3) % 256 ∧ SameMemory s t ∧ SameOutRun s t) ∧
  (∀ (s : State) (a b : Byte), 7 < a.toNat → Faults (.add a b) s (.invalidRegister s.pc 0xA0 a)) ∧
  (∀ (s : State) (a : Fin 8) (b : Byte), 7 < b.toNat →
    Faults (.add (regByte a) b) s (.invalidRegister s.pc 0xA0 b))

/-- R112, whole: encoding, the low 8 bits of the product for every pair of slots, frame, InvalidRegister with `a` checked
first. -/
def Obligations.MultKeepsLowByte : Prop :=
  (∀ a b : Byte, decode 0xA2 a b = .ok (.mult a b) ∧ encode (.mult a b) = [0xA2, a, b]) ∧
  (∀ (s : State) (a b : Fin 8), ∃ t, exec (.mult (regByte a) (regByte b)) s = .next t ∧
    (regRead t a).toNat = ((regRead s a).toNat * (regRead s b).toNat) % 256 ∧
    SameRegsExcept [a] s t ∧ t.pc.toNat = (s.pc.toNat + 3) % 256 ∧ SameMemory s t ∧ SameOutRun s t) ∧
  (∀ (s : State) (a b : Byte), 7 < a.toNat → Faults (.mult a b) s (.invalidRegister s.pc 0xA2 a)) ∧
  (∀ (s : State) (a : Fin 8) (b : Byte), 7 < b.toNat →
    Faults (.mult (regByte a) b) s (.invalidRegister s.pc 0xA2 b))

/-- R100, whole: the one byte stored stands at the decremented SP and is the slot's value AFTER the decrement (the rule's
pseudocode says so in its comment on the read of `x[r]`; the spec has no example of it from its source, U8, log entry 10), so
PUSH R7 stores the decremented pointer; every other byte and slot is unchanged; InvalidRegister above 7 leaves SP alone. -/
def Obligations.PushStoresAfterDecrement : Prop :=
  (∀ a b : Byte, decode 0x45 a b = .ok (.push a) ∧ encode (.push a) = [0x45, a]) ∧
  (∀ (s : State) (a : Fin 8), ∃ t, exec (.push (regByte a)) s = .next t ∧
    (sp t).toNat = ((sp s).toNat + 255) % 256 ∧ SameRegsExcept [7] s t ∧
    memRead t (sp t) = (if a = 7 then sp t else regRead s a) ∧
    (∀ x, x ≠ sp t → memRead t x = memRead s x) ∧
    t.pc.toNat = (s.pc.toNat + 2) % 256 ∧ SameOutRun s t) ∧
  (∀ (s : State) (a : Byte), 7 < a.toNat → Faults (.push a) s (.invalidRegister s.pc 0x45 a))

/-- R101, whole: the slot gets the byte at SP, SP is incremented afterwards, so POP R7 ends with the loaded byte plus one;
memory is unchanged; InvalidRegister above 7. -/
def Obligations.PopLoadsThenIncrements : Prop :=
  (∀ a b : Byte, decode 0x46 a b = .ok (.pop a) ∧ encode (.pop a) = [0x46, a]) ∧
  (∀ (s : State) (a : Fin 8), ∃ t, exec (.pop (regByte a)) s = .next t ∧
    (a ≠ 7 → regRead t a = memRead s (sp s) ∧ (sp t).toNat = ((sp s).toNat + 1) % 256) ∧
    (a = 7 → (sp t).toNat = ((memRead s (sp s)).toNat + 1) % 256) ∧
    SameRegsExcept [a, 7] s t ∧ SameMemory s t ∧
    t.pc.toNat = (s.pc.toNat + 2) % 256 ∧ SameOutRun s t) ∧
  (∀ (s : State) (a : Byte), 7 < a.toNat → Faults (.pop a) s (.invalidRegister s.pc 0x46 a))

/-- R130, whole: FL gets exactly one of 1, 2, 4 by the unsigned order of the two slots as they were before, so exactly one of
JEQ, JNE would then jump; nothing else but `pc` changes; InvalidRegister with `a` checked first. -/
def Obligations.CmpRecordsOneCode : Prop :=
  (∀ a b : Byte, decode 0xA7 a b = .ok (.cmp a b) ∧ encode (.cmp a b) = [0xA7, a, b]) ∧
  (∀ (s : State) (a b : Fin 8), ∃ t, exec (.cmp (regByte a) (regByte b)) s = .next t ∧
    ((regRead s a).toNat = (regRead s b).toNat → fl t = 1) ∧
    ((regRead s b).toNat < (regRead s a).toNat → fl t = 2) ∧
    ((regRead s a).toNat < (regRead s b).toNat → fl t = 4) ∧
    (jeqTaken (fl t) = true ↔ jneTaken (fl t) = false) ∧
    SameRegsExcept [6] s t ∧ t.pc.toNat = (s.pc.toNat + 3) % 256 ∧ SameMemory s t ∧ SameOutRun s t) ∧
  (∀ (s : State) (a b : Byte), 7 < a.toNat → Faults (.cmp a b) s (.invalidRegister s.pc 0xA7 a)) ∧
  (∀ (s : State) (a : Fin 8) (b : Byte), 7 < b.toNat →
    Faults (.cmp (regByte a) b) s (.invalidRegister s.pc 0xA7 b))

/-- R131, whole: taken exactly when all 8 bits of FL equal 1; the operand is examined only then. -/
def Obligations.JeqJumpsOnlyOnEqual : Prop :=
  (∀ a b : Byte, decode 0x55 a b = .ok (.jeq a) ∧ encode (.jeq a) = [0x55, a]) ∧
  (∀ (s : State) (a : Fin 8), fl s = 1 → ∃ t, exec (.jeq (regByte a)) s = .next t ∧
    t.pc = regRead s a ∧ OnlyPcChanged s t) ∧
  (∀ (s : State) (a : Byte), fl s ≠ 1 → ∃ t, exec (.jeq a) s = .next t ∧
    t.pc.toNat = (s.pc.toNat + 2) % 256 ∧ OnlyPcChanged s t) ∧
  (∀ (s : State) (a : Byte), fl s = 1 → 7 < a.toNat → Faults (.jeq a) s (.invalidRegister s.pc 0x55 a))

/-- R132, whole: taken exactly when FL is 2 or 4, not merely different from 1; the operand is examined only then. -/
def Obligations.JneJumpsOnTwoOrFour : Prop :=
  (∀ a b : Byte, decode 0x56 a b = .ok (.jne a) ∧ encode (.jne a) = [0x56, a]) ∧
  (∀ (s : State) (a : Fin 8), (fl s = 2 ∨ fl s = 4) → ∃ t, exec (.jne (regByte a)) s = .next t ∧
    t.pc = regRead s a ∧ OnlyPcChanged s t) ∧
  (∀ (s : State) (a : Byte), fl s ≠ 2 → fl s ≠ 4 → ∃ t, exec (.jne a) s = .next t ∧
    t.pc.toNat = (s.pc.toNat + 2) % 256 ∧ OnlyPcChanged s t) ∧
  (∀ (s : State) (a : Byte), (fl s = 2 ∨ fl s = 4) → 7 < a.toNat →
    Faults (.jne a) s (.invalidRegister s.pc 0x56 a))

/-- R133, whole: `pc` becomes the slot's value, nothing else changes; InvalidRegister above 7. -/
def Obligations.JmpGoesToRegister : Prop :=
  (∀ a b : Byte, decode 0x54 a b = .ok (.jmp a) ∧ encode (.jmp a) = [0x54, a]) ∧
  (∀ (s : State) (a : Fin 8), ∃ t, exec (.jmp (regByte a)) s = .next t ∧
    t.pc = regRead s a ∧ OnlyPcChanged s t) ∧
  (∀ (s : State) (a : Byte), 7 < a.toNat → Faults (.jmp a) s (.invalidRegister s.pc 0x54 a))

/-- R150, whole: the return address `pc + 2` stands at the decremented SP, `pc` is the slot's value AFTER the decrement, every
other byte and slot is unchanged; InvalidRegister above 7 leaves SP alone. -/
def Obligations.CallPushesReturnAddress : Prop :=
  (∀ a b : Byte, decode 0x50 a b = .ok (.call a) ∧ encode (.call a) = [0x50, a]) ∧
  (∀ (s : State) (a : Fin 8), ∃ t, exec (.call (regByte a)) s = .next t ∧
    (sp t).toNat = ((sp s).toNat + 255) % 256 ∧ SameRegsExcept [7] s t ∧
    (memRead t (sp t)).toNat = (s.pc.toNat + 2) % 256 ∧
    (∀ x, x ≠ sp t → memRead t x = memRead s x) ∧
    t.pc = (if a = 7 then sp t else regRead s a) ∧ SameOutRun s t) ∧
  (∀ (s : State) (a : Byte), 7 < a.toNat → Faults (.call a) s (.invalidRegister s.pc 0x50 a))

/-- R151, whole: `pc` becomes the byte at SP, SP is incremented, no other slot and no byte of memory changes (the register of the
source's two-step path is not written: the spec's decision D5, log entry 8). -/
def Obligations.RetPopsIntoPc : Prop :=
  (∀ a b : Byte, decode 0x11 a b = .ok .ret ∧ encode .ret = [0x11]) ∧
  (∀ s : State, ∃ t, exec .ret s = .next t ∧ t.pc = memRead s (sp s) ∧
    (sp t).toNat = ((sp s).toNat + 1) % 256 ∧ SameRegsExcept [7] s t ∧ SameMemory s t ∧ SameOutRun s t)

/-- R160, whole: the slot's value is appended to the output, nothing else but `pc` changes; InvalidRegister above 7 emits
nothing. -/
def Obligations.PrnEmitsRegister : Prop :=
  (∀ a b : Byte, decode 0x47 a b = .ok (.prn a) ∧ encode (.prn a) = [0x47, a]) ∧
  (∀ (s : State) (a : Fin 8), ∃ t, exec (.prn (regByte a)) s = .next t ∧
    t.out = s.out ++ [regRead s a] ∧ t.run = s.run ∧ t.pc.toNat = (s.pc.toNat + 2) % 256 ∧
    SameRegsExcept [] s t ∧ SameMemory s t) ∧
  (∀ (s : State) (a : Byte), 7 < a.toNat → Faults (.prn a) s (.invalidRegister s.pc 0x47 a))

/-- R161, whole: `run` becomes Halted, everything else (`pc` too) is as it was, and no step follows. -/
def Obligations.HltStopsInPlace : Prop :=
  (∀ a b : Byte, decode 0x01 a b = .ok .hlt ∧ encode .hlt = [0x01]) ∧
  (∀ s : State, ∃ t, exec .hlt s = .next t ∧ t.run = .halted ∧ t.pc = s.pc ∧ t.out = s.out ∧
    SameRegsExcept [] s t ∧ SameMemory s t ∧ Quiescent t)

/-! ## The cycle -/

/-- R81: fetch reads the cells at `pc`, `pc + 1`, `pc + 2` modulo 256, in every state. -/
def Obligations.FetchReadsThreeCells : Prop :=
  ∀ s : State, (fetch s).ir = memGet s.mem s.pc.toNat ∧
    (fetch s).opA = memGet s.mem ((s.pc.toNat + 1) % 256) ∧
    (fetch s).opB = memGet s.mem ((s.pc.toNat + 2) % 256)

/-- R82: a running machine whose three bytes at `pc` decode to `i` runs exactly `i`; one whose opcode byte is invalid raises
InvalidOpcode with `pc` and that byte and changes nothing else. Nothing is added around `exec`. -/
def Obligations.StepRunsDecodedInstruction : Prop :=
  (∀ (s : State) (i : Instr), s.run = .running →
    decode (memRead s s.pc) (memRead s (s.pc + 1)) (memRead s (s.pc + 2)) = .ok i → step s = exec i s) ∧
  (∀ s : State, s.run = .running →
    decode (memRead s s.pc) (memRead s (s.pc + 1)) (memRead s (s.pc + 2)) =
      .error (.invalidOpcode (memRead s s.pc)) →
    step s = .next { s with run := .faulted (.invalidOpcode s.pc (memRead s s.pc)) })

/-- R10: a running machine always has a next state, and it is Running, or Halted by an HLT byte, or Faulted with everything else
unchanged; a stopped one has none. -/
def Obligations.StepHasThreeOutcomes : Prop :=
  (∀ s : State, s.run = .running → ∃ t, step s = .next t ∧
    (t.run = .running ∨
      (t.run = .halted ∧ memRead s s.pc = 0x01) ∨
      ∃ cause, t.run = .faulted cause ∧ t = { s with run := .faulted cause })) ∧
  (∀ s : State, s.run ≠ .running → Quiescent s)

/-- R178 and R173: a cycle that ends Faulted changed nothing but the latch, the latch records the address and, but for
UnsupportedOperation, the opcode byte of the faulting instruction, and no cycle follows. -/
def Obligations.FaultChangesOnlyTheLatch : Prop :=
  ∀ (s t : State) (cause : FaultCause), step s = .next t → t.run = .faulted cause →
    t.regs = s.regs ∧ t.mem = s.mem ∧ t.pc = s.pc ∧ t.out = s.out ∧ Quiescent t ∧
    (cause = .invalidOpcode s.pc (memRead s s.pc) ∨
      ∃ operand, cause = .invalidRegister s.pc (memRead s s.pc) operand)

/-- R171: a cycle raises InvalidOpcode exactly when the machine runs and the byte at `pc` is none of the 13 opcodes, and it reports
that address and that byte. -/
def Obligations.InvalidOpcodeExactlyWhen : Prop :=
  ∀ (s : State) (p ir : Byte),
    (∃ t, step s = .next t ∧ t.run = .faulted (.invalidOpcode p ir)) ↔
      (s.run = .running ∧ p = s.pc ∧ ir = memRead s s.pc ∧
        ir ∉ ([0x01, 0x11, 0x45, 0x46, 0x47, 0x50, 0x54, 0x55, 0x56, 0x82, 0xA0, 0xA2, 0xA7] : List Byte))

/-- R172: a cycle raises InvalidRegister exactly when the machine runs and the instruction at `pc` goes to access the register
its first operand byte names, or (ADD, MULT, CMP) its second, and that byte is above 7; it reports address, opcode and byte. -/
def Obligations.InvalidRegisterExactlyWhen : Prop :=
  ∀ (s : State) (p ir operand : Byte),
    (∃ t, step s = .next t ∧ t.run = .faulted (.invalidRegister p ir operand)) ↔
      (s.run = .running ∧ p = s.pc ∧ ir = memRead s s.pc ∧ 7 < operand.toNat ∧
        ((operand = memRead s (s.pc + 1) ∧
            (ir ∈ ([0x45, 0x46, 0x47, 0x50, 0x54, 0x82, 0xA0, 0xA2, 0xA7] : List Byte) ∨
              (ir = 0x55 ∧ fl s = 1) ∨ (ir = 0x56 ∧ (fl s = 2 ∨ fl s = 4)))) ∨
          (operand = memRead s (s.pc + 2) ∧ (memRead s (s.pc + 1)).toNat ≤ 7 ∧
            ir ∈ ([0xA0, 0xA2, 0xA7] : List Byte))))

/-- R174: UnsupportedOperation cannot occur: a reset leaves the machine Running, and no step ends in that fault. -/
def Obligations.UnsupportedOperationNeverRaised : Prop :=
  (∀ (image : List Byte) (s t : State), hostReset image s = .next t → t.run = .running) ∧
  (∀ s t : State, step s = .next t → t.run ≠ .faulted .unsupportedOperation)

/-- R177: the opcode is checked first, then `a`, then `b`; and a cycle that faults is the last one. -/
def Obligations.FaultPriority : Prop :=
  (∀ s : State, s.run = .running → decodeOpcode (memRead s s.pc) = none →
    ∃ t, step s = .next t ∧ t.run = .faulted (.invalidOpcode s.pc (memRead s s.pc))) ∧
  (∀ s : State, s.run = .running → memRead s s.pc ∈ ([0xA0, 0xA2, 0xA7] : List Byte) →
    7 < (memRead s (s.pc + 1)).toNat →
    ∃ t, step s = .next t ∧
      t.run = .faulted (.invalidRegister s.pc (memRead s s.pc) (memRead s (s.pc + 1)))) ∧
  (∀ s : State, s.run = .running → memRead s s.pc ∈ ([0xA0, 0xA2, 0xA7] : List Byte) →
    (memRead s (s.pc + 1)).toNat ≤ 7 → 7 < (memRead s (s.pc + 2)).toNat →
    ∃ t, step s = .next t ∧
      t.run = .faulted (.invalidRegister s.pc (memRead s s.pc) (memRead s (s.pc + 2)))) ∧
  (∀ (s t : State) (cause : FaultCause), step s = .next t → t.run = .faulted cause → Quiescent t)

/-- R25's table: where each instruction leaves `pc`, faulting cycles and HLT included. -/
def Obligations.PcAfterEachInstruction : Prop :=
  ∀ (i : Instr) (s t : State), s.run = .running → exec i s = .next t →
    ((∃ cause, t.run = .faulted cause) → t.pc = s.pc) ∧
    ((∀ cause, t.run ≠ .faulted cause) →
      match i with
      | .hlt => t.pc = s.pc
      | .ret => t.pc = memRead s (sp s)
      | .push _ | .pop _ | .prn _ => t.pc.toNat = (s.pc.toNat + 2) % 256
      | .ldi _ _ | .add _ _ | .mult _ _ | .cmp _ _ => t.pc.toNat = (s.pc.toNat + 3) % 256
      | .jmp a => ∃ r, a = regByte r ∧ t.pc = regRead s r
      | .call a => ∃ r, a = regByte r ∧ t.pc = (if r = 7 then sp s - 1 else regRead s r)
      | .jeq a =>
        if fl s = 1 then ∃ r, a = regByte r ∧ t.pc = regRead s r
        else t.pc.toNat = (s.pc.toNat + 2) % 256
      | .jne a =>
        if fl s = 2 ∨ fl s = 4 then ∃ r, a = regByte r ∧ t.pc = regRead s r
        else t.pc.toNat = (s.pc.toNat + 2) % 256)

/-- R85: a cycle that completes without a jump advances `pc` by the top two bits of the byte it fetched, plus one. -/
def Obligations.AutoAdvanceFromOpcodeBits : Prop :=
  ∀ (s t : State) (i : Instr), step s = .next t →
    decode (memRead s s.pc) (memRead s (s.pc + 1)) (memRead s (s.pc + 2)) = .ok i →
    autoAdvances i s = true → t.run = .running →
    t.pc.toNat = (s.pc.toNat + (memRead s s.pc).toNat / 64 + 1) % 256

/-! ## Whole-machine rules -/

/-- R21 and R28: an instruction changes no slot outside the ones R21's table lists as written; only CMP writes a slot that no
operand names and that is not the stack pointer. -/
def Obligations.OnlyListedSlotsWritten : Prop :=
  ∀ (i : Instr) (s t : State), exec i s = .next t → SameRegsExcept (slotsWritten i) s t

/-- R21: a slot that R21's table does not list as read has no influence: changing it before the instruction changes nothing after
it but that slot. -/
def Obligations.UnreadSlotsHaveNoInfluence : Prop :=
  ∀ (i : Instr) (s : State) (k : Fin 8) (v : Byte), k ∉ slotsRead i s →
    ∃ t u, exec i s = .next t ∧ exec i (regWrite s k v) = .next u ∧
      SameRegsExcept [k] t u ∧ SameMemory t u ∧ SameOutRun t u ∧ u.pc = t.pc

/-- R41: only PUSH and CALL change a byte of memory, and only the one at the decremented SP; and only POP and RET read data, so
for the other instructions no byte of memory has an influence, and for these two only the byte at SP has. -/
def Obligations.DataAccessesOfEachInstruction : Prop :=
  (∀ (i : Instr) (s t : State) (x : Byte), exec i s = .next t → memRead t x ≠ memRead s x →
    x = sp s - 1 ∧ ∃ a, i = .push a ∨ i = .call a) ∧
  (∀ (i : Instr) (s : State) (x v : Byte), ((∃ a, i = .pop a) ∨ i = .ret → x ≠ sp s) →
    ∃ t u, exec i s = .next t ∧ exec i (memWrite s x v) = .next u ∧
      SameRegsExcept [] t u ∧ SameOutRun t u ∧ u.pc = t.pc ∧ ∀ y, y ≠ x → memRead u y = memRead t y)

/-- R30: the output is empty at reset; a step leaves it as it was or, for PRN, appends the slot's value; and no instruction reads it. -/
def Obligations.OutputOnlyGrowsByPrn : Prop :=
  State.reset.out = [] ∧
  (∀ (image : List Byte) (s t : State), hostReset image s = .next t → t.out = []) ∧
  (∀ s t : State, step s = .next t →
    t.out = s.out ∨
      ∃ r, memRead s s.pc = 0x47 ∧ memRead s (s.pc + 1) = regByte r ∧ t.out = s.out ++ [regRead s r]) ∧
  (∀ (s t : State) (o : List Byte), step s = .next t →
    ∃ u, step { s with out := o } = .next u ∧ u = { t with out := u.out })

/-- R134: after CMP exactly one of JEQ, JNE jumps, by the table; at every value of FL that CMP cannot write neither does. -/
def Obligations.BranchTableAfterCmp : Prop :=
  let jumps := fun (i : Instr) (t : State) (r : Fin 8) =>
    ∃ u, exec i t = .next u ∧ u.pc = regRead t r ∧ OnlyPcChanged t u
  let falls := fun (i : Instr) (t : State) =>
    ∃ u, exec i t = .next u ∧ u.pc.toNat = (t.pc.toNat + 2) % 256 ∧ OnlyPcChanged t u
  (∀ (s : State) (a b r : Fin 8), ∃ t, exec (.cmp (regByte a) (regByte b)) s = .next t ∧
    (regRead s a = regRead s b → fl t = 1 ∧ jumps (.jeq (regByte r)) t r ∧ falls (.jne (regByte r)) t) ∧
    ((regRead s b).toNat < (regRead s a).toNat →
      fl t = 2 ∧ falls (.jeq (regByte r)) t ∧ jumps (.jne (regByte r)) t r) ∧
    ((regRead s a).toNat < (regRead s b).toNat →
      fl t = 4 ∧ falls (.jeq (regByte r)) t ∧ jumps (.jne (regByte r)) t r)) ∧
  (∀ (s : State) (a : Byte), fl s ≠ 1 → fl s ≠ 2 → fl s ≠ 4 → falls (.jeq a) s ∧ falls (.jne a) s)

/-- R103: PUSH R then POP R2, for all 64 pairs of slots: the value pushed is the slot's, or for R7 that minus one; POP into another
slot than R7 gives it that value and restores SP; POP R7 leaves SP at that value plus one. -/
def Obligations.PushThenPop : Prop :=
  ∀ (s : State) (r q : Fin 8), ∃ t u, exec (.push (regByte r)) s = .next t ∧
    exec (.pop (regByte q)) t = .next u ∧
    (q ≠ 7 → regRead u q = (if r = 7 then regRead s 7 - 1 else regRead s r) ∧ sp u = sp s) ∧
    (q = 7 → sp u = (if r = 7 then regRead s 7 - 1 else regRead s r) + 1)

/-- R152: whatever a subroutine did, a RET reached with SP where the CALL left it and the return cell unchanged goes back to the
byte after the CALL and restores SP. -/
def Obligations.CallThenReturn : Prop :=
  ∀ (s : State) (r : Fin 8), ∃ t, exec (.call (regByte r)) s = .next t ∧
    ∀ u : State, sp u = sp s - 1 → memRead u (sp s - 1) = memRead t (sp s - 1) →
      ∃ w, exec .ret u = .next w ∧ w.pc.toNat = (s.pc.toNat + 2) % 256 ∧ sp w = sp s

/-- R52: a byte that PUSH or CALL stores is what the next fetch sees, as the opcode or as an operand byte; and a PUSH that
overwrites its own operand byte still pushes the slot it fetched. -/
def Obligations.StoreSeenByNextFetch : Prop :=
  (∀ (s : State) (r : Fin 8), s.run = .running → memRead s s.pc = 0x45 → memRead s (s.pc + 1) = regByte r →
    ∃ t, step s = .next t ∧ t.pc = s.pc + 2 ∧
      memRead t (sp s - 1) = (if r = 7 then sp s - 1 else regRead s r) ∧
      (sp s - 1 = s.pc + 2 → (fetch t).ir = (if r = 7 then sp s - 1 else regRead s r)) ∧
      (sp s - 1 = s.pc + 3 → (fetch t).opA = (if r = 7 then sp s - 1 else regRead s r)) ∧
      (sp s - 1 = s.pc + 4 → (fetch t).opB = (if r = 7 then sp s - 1 else regRead s r))) ∧
  (∀ (s : State) (r : Fin 8), s.run = .running → memRead s s.pc = 0x50 → memRead s (s.pc + 1) = regByte r →
    ∃ t, step s = .next t ∧ memRead t (sp s - 1) = s.pc + 2 ∧
      (t.pc = sp s - 1 → (fetch t).ir = s.pc + 2) ∧
      (t.pc + 1 = sp s - 1 → (fetch t).opA = s.pc + 2) ∧
      (t.pc + 2 = sp s - 1 → (fetch t).opB = s.pc + 2))

/-- R64 and R65: an instruction all of whose register operands name slots never faults, in any running state. -/
def Obligations.WellFormedNeverFaults : Prop :=
  ∀ (i : Instr) (s : State), i.wellFormed = true → s.run = .running →
    ∃ t, exec i s = .next t ∧ ∀ cause, t.run ≠ .faulted cause

/-! ## State, memory, arithmetic -/

/-- R20: eight ordinary slots: each holds what was last written to it and a write changes no other; SP and FL are slots 7 and 6. -/
def Obligations.RegisterSlotsAreOrdinary : Prop :=
  ∀ (s : State) (k j : Fin 8) (v : Byte),
    regRead (regWrite s k v) j = (if j = k then v else regRead s j) ∧
    sp (regWrite s k v) = (if k = 7 then v else sp s) ∧
    fl (regWrite s k v) = (if k = 6 then v else fl s)

/-- R42: MemWrite sets one cell and changes no other cell and nothing else, for all 256 addresses and 256 values. -/
def Obligations.MemWriteSetsOneCell : Prop :=
  ∀ (s : State) (addr v x : Byte),
    memRead (memWrite s addr v) x = (if x = addr then v else memRead s x) ∧
    (memWrite s addr v).regs = s.regs ∧ (memWrite s addr v).pc = s.pc ∧
    (memWrite s addr v).run = s.run ∧ (memWrite s addr v).out = s.out

/-- The canonical form is canonical (a property of the model's representation, log entry 5): two memories in that form whose 256
cells read alike are the same data. -/
def Obligations.CanonicalMemoryDetermined : Prop :=
  ∀ m n : Memory, Memory.wf m → Memory.wf n →
    (∀ x : Byte, memGet m x.toNat = memGet n x.toNat) → m = n

/-- R113 and R119 for the ALU: both results are the exact ones modulo 256, and the laws R119 draws from that. -/
def Obligations.AluLaws : Prop :=
  ∀ u v w : Byte,
    (alu .add u v).toNat = (u.toNat + v.toNat) % 256 ∧ (alu .mul u v).toNat = (u.toNat * v.toNat) % 256 ∧
    alu .add u v = alu .add v u ∧ alu .mul u v = alu .mul v u ∧
    alu .add (alu .add u v) w = alu .add u (alu .add v w) ∧
    alu .mul (alu .mul u v) w = alu .mul u (alu .mul v w) ∧
    alu .add u 0 = u ∧ alu .mul u 1 = u ∧ alu .mul u 0 = 0 ∧
    (alu .add u 255).toNat = (u.toNat + 255) % 256 ∧ alu .add (alu .add u 255) 1 = u

/-- D2's side condition: where it holds, the address computations of R48 give the exact numbers. -/
def Obligations.NoWrapMeansExactAddresses : Prop :=
  ∀ s : State, NoAddressWrap s →
    (s.pc + 1).toNat = s.pc.toNat + 1 ∧ (s.pc + 2).toNat = s.pc.toNat + 2 ∧
    (∀ m, (advancePc s (opcodeOf m)).pc.toNat = s.pc.toNat + operandCount m + 1) ∧
    (sp (decSp s)).toNat + 1 = (sp s).toNat ∧ (sp (incSp s)).toNat = (sp s).toNat + 1

/-! ## Reset -/

/-- R33, R200, R201: a reset with an image of at most 256 bytes gives one and the same state from every state: image, zeros, registers,
pc, latch and output as R33's table; a longer image is refused; the empty image gives `State.reset`, whose first cycle raises
InvalidOpcode(0, 0). -/
def Obligations.ResetGivesTheStatedState : Prop :=
  (∀ image : List Byte, image.length ≤ 256 → ∃ t : State, (∀ s, hostReset image s = .next t) ∧
    (∀ k : Fin 8, regRead t k = (if k = 7 then 0xF4 else 0)) ∧ t.pc = 0 ∧ t.run = .running ∧ t.out = [] ∧
    (∀ x : Byte, memRead t x = (image[x.toNat]?).getD 0)) ∧
  (∀ (image : List Byte) (s t : State), 256 < image.length → hostReset image s ≠ .next t) ∧
  (∀ s, hostReset [] s = .next State.reset) ∧
  (∃ t, step State.reset = .next t ∧ t.run = .faulted (.invalidOpcode 0 0))

/-! ## The invariant -/

/-- The invariant holds at reset. -/
def Obligations.ResetMeetsInvariant : Prop :=
  Inv State.reset

/-- The invariant holds after a reset with any image. -/
def Obligations.LoadedResetMeetsInvariant : Prop :=
  ∀ (image : List Byte) (s t : State), hostReset image s = .next t → Inv t

/-- Every step keeps the invariant: memory stays canonical, and whenever the machine stops, the latch tells the truth about where and
why (R161, R171, R172, R174, R178). -/
def Obligations.StepKeepsInvariant : Prop :=
  ∀ s t : State, Inv s → step s = .next t → Inv t

/-- The invariant in every state of every run: reset with any image, then any number of steps. -/
def Obligations.EveryRunKeepsInvariant : Prop :=
  ∀ (image : List Byte) (before s t : State) (k : Nat), hostReset image before = .next s →
    Host.Core.run core k s = .next t → Inv t

/-! ## Encoding -/

/-- R66's table on every operand: 13 opcode bytes, their operand counts in bits 7:6, their operands (the values are the spec's
decision D3, log entry 4). -/
def Obligations.OpcodeTableDecodes : Prop :=
  (∀ a b : Byte,
    decode 0x01 a b = .ok .hlt ∧ decode 0x11 a b = .ok .ret ∧ decode 0x45 a b = .ok (.push a) ∧
    decode 0x46 a b = .ok (.pop a) ∧ decode 0x47 a b = .ok (.prn a) ∧ decode 0x50 a b = .ok (.call a) ∧
    decode 0x54 a b = .ok (.jmp a) ∧ decode 0x55 a b = .ok (.jeq a) ∧ decode 0x56 a b = .ok (.jne a) ∧
    decode 0x82 a b = .ok (.ldi a b) ∧ decode 0xA0 a b = .ok (.add a b) ∧
    decode 0xA2 a b = .ok (.mult a b) ∧ decode 0xA7 a b = .ok (.cmp a b)) ∧
  (∀ m : Mnemonic, (operandField (opcodeOf m)).toNat = operandCount m) ∧
  (∀ m n : Mnemonic, opcodeOf m = opcodeOf n → m = n)

/-- A few whole instructions as numbers, written out from R60 and R66 (the first byte lowest), decode to what they stand for. -/
def Obligations.InstructionWordsDecode : Prop :=
  decodeTableWord 24 0x2A0082 = some (.ldi 0 42) ∧ decodeTableWord 24 0x0100A0 = some (.add 0 1) ∧
  decodeTableWord 16 0x0245 = some (.push 2) ∧ decodeTableWord 24 0x0706A7 = some (.cmp 6 7) ∧
  decodeTableWord 16 0x0150 = some (.call 1) ∧ decodeTableWord 16 0x0047 = some (.prn 0) ∧
  decodeTableWord 8 0x01 = some .hlt ∧ decodeTableWord 8 0x00 = none

/-- R67 and R68: the decoder answers an instruction for exactly the 13 listed byte values, refuses every other byte value by name, and which
instruction it is depends on the opcode byte alone. -/
def Obligations.DecoderAcceptsExactlyThirteen : Prop :=
  (∀ ir a b : Byte, (∃ i, decode ir a b = .ok i) ↔
    ir ∈ ([0x01, 0x11, 0x45, 0x46, 0x47, 0x50, 0x54, 0x55, 0x56, 0x82, 0xA0, 0xA2, 0xA7] : List Byte)) ∧
  (∀ ir a b : Byte, (¬∃ i, decode ir a b = .ok i) → decode ir a b = .error (.invalidOpcode ir)) ∧
  (decodeOpcode 0x01 = some .hlt ∧ decodeOpcode 0x11 = some .ret ∧ decodeOpcode 0x45 = some .push ∧
    decodeOpcode 0x46 = some .pop ∧ decodeOpcode 0x47 = some .prn ∧ decodeOpcode 0x50 = some .call ∧
    decodeOpcode 0x54 = some .jmp ∧ decodeOpcode 0x55 = some .jeq ∧ decodeOpcode 0x56 = some .jne ∧
    decodeOpcode 0x82 = some .ldi ∧ decodeOpcode 0xA0 = some .add ∧ decodeOpcode 0xA2 = some .mult ∧
    decodeOpcode 0xA7 = some .cmp) ∧
  (∀ (ir a b : Byte) (i : Instr), decode ir a b = .ok i → decodeOpcode ir = some (mnemonicOf i))

/-- R62: an F0 instruction ignores both operand bytes, an F1 instruction the second; the instruction decoded is the same whatever
they hold. -/
def Obligations.IgnoredOperandBytes : Prop :=
  (∀ ir a b a' b' : Byte, operandField ir = 0 → decode ir a b = decode ir a' b') ∧
  (∀ ir a b b' : Byte, operandField ir = 1 → decode ir a b = decode ir a b')

/-- Decoding the encoding of an instruction, whatever bytes follow it, gives the instruction back, for all instructions and all
operand bytes. -/
def Obligations.DecodeOfEncode : Prop :=
  ∀ (i : Instr) (after : List Byte) (ir opA opB : Byte),
    (encode i ++ after).take 3 = [ir, opA, opB] → decode ir opA opB = .ok i

/-- The other direction: an instruction that is decoded was encoded by the first K + 1 of the three bytes, K the opcode's top two
bits (R60, R61). -/
def Obligations.EncodeOfDecode : Prop :=
  ∀ (ir opA opB : Byte) (i : Instr), decode ir opA opB = .ok i →
    encode i = [ir, opA, opB].take (ir.toNat / 64 + 1)

/-- From memory to effect: an instruction's encoding stored from any `pc` upward, wrapping at the top, is fetched, decoded and run
as exactly that instruction, whatever the rest of memory holds. -/
def Obligations.StoredEncodingRuns : Prop :=
  ∀ (i : Instr) (s : State), s.run = .running →
    step (storeBytes s s.pc (encode i)) = exec i (storeBytes s s.pc (encode i))

/-- How the host places an instruction (log entry 1): a word that decodes to an instruction, placed with `withFetchWord` in any
state, is what the very next step runs. -/
def Obligations.PlacedWordRuns : Prop :=
  ∀ (s : State) (nbits w : Nat) (i : Instr), decodeTableWord nbits w = some i →
    step (s.withFetchWord nbits w) = exec i (s.withFetchWord nbits w)
end

