-- ==== Sys2Proof/Laws/Decode.lean ====
section
/-! SUPPORT. The laws of the opcode map and the decoder. -/

namespace Sys2Proof

/-- The decoder's lookup finds a mnemonic exactly for that mnemonic's opcode byte. -/
theorem decodeOpcode_eq_some {ir : Byte} {m : Mnemonic} : decodeOpcode ir = some m ↔ ir = opcodeOf m := by
  constructor
  · intro h
    have found := List.find?_some (p := fun m => opcodeOf m == ir) h
    exact (beq_iff_eq.mp found).symm
  · rintro rfl
    cases m <;> decide

@[simp] theorem decodeOpcode_opcodeOf (m : Mnemonic) : decodeOpcode (opcodeOf m) = some m :=
  decodeOpcode_eq_some.mpr rfl

/-- What the decoder answers when it answers an instruction. -/
theorem decode_eq_ok {ir a b : Byte} {i : Instr} :
    decode ir a b = .ok i ↔ ∃ m, ir = opcodeOf m ∧ i = instrOf m a b := by
  unfold decode
  constructor
  · intro h
    split at h
    · next m hm => exact ⟨m, decodeOpcode_eq_some.mp hm, by cases h; rfl⟩
    · cases h
  · rintro ⟨m, rfl, rfl⟩
    simp

/-- What the decoder answers when it refuses. -/
theorem decode_eq_error {ir a b : Byte} {e : DecodeError} :
    decode ir a b = .error e ↔ decodeOpcode ir = none ∧ e = .invalidOpcode ir := by
  unfold decode
  split
  · next m hm => simp [hm]
  · next hm => simp [hm, eq_comm]

@[simp] theorem mnemonicOf_instrOf (m : Mnemonic) (a b : Byte) : mnemonicOf (instrOf m a b) = m := by
  cases m <;> rfl

/-- The auto-advance of each opcode is its operand count plus one (R61, R85). -/
theorem operandField_opcodeOf (m : Mnemonic) :
    operandField (opcodeOf m) = BitVec.ofNat 8 (operandCount m) := by
  cases m <;> decide

end Sys2Proof
end

