-- ==== Sys2Proof/Laws/State.lean ====
section
/-! SUPPORT. What each update of the state leaves in each field, true by unfolding once here so that no later proof unfolds a
record update. -/

namespace Sys2Proof.Machine

section
variable (s : State) (k : Fin Config.numRegs) (a v : Byte) (c : FaultCause)

@[simp] theorem regWrite_regs : (regWrite s k v).regs = s.regs.set k v := rfl
@[simp] theorem regWrite_pc : (regWrite s k v).pc = s.pc := rfl
@[simp] theorem regWrite_mem : (regWrite s k v).mem = s.mem := rfl
@[simp] theorem regWrite_run : (regWrite s k v).run = s.run := rfl
@[simp] theorem regWrite_out : (regWrite s k v).out = s.out := rfl

@[simp] theorem memWrite_regs : (memWrite s a v).regs = s.regs := rfl
@[simp] theorem memWrite_pc : (memWrite s a v).pc = s.pc := rfl
@[simp] theorem memWrite_mem : (memWrite s a v).mem = memPut s.mem a.toNat v := rfl
@[simp] theorem memWrite_run : (memWrite s a v).run = s.run := rfl
@[simp] theorem memWrite_out : (memWrite s a v).out = s.out := rfl

@[simp] theorem setPc_regs : (setPc s a).regs = s.regs := rfl
@[simp] theorem setPc_pc : (setPc s a).pc = a := rfl
@[simp] theorem setPc_mem : (setPc s a).mem = s.mem := rfl
@[simp] theorem setPc_run : (setPc s a).run = s.run := rfl
@[simp] theorem setPc_out : (setPc s a).out = s.out := rfl

@[simp] theorem advancePc_regs : (advancePc s a).regs = s.regs := rfl
@[simp] theorem advancePc_pc : (advancePc s a).pc = s.pc + operandField a + 1 := rfl
@[simp] theorem advancePc_mem : (advancePc s a).mem = s.mem := rfl
@[simp] theorem advancePc_run : (advancePc s a).run = s.run := rfl
@[simp] theorem advancePc_out : (advancePc s a).out = s.out := rfl

@[simp] theorem emit_regs : (emit s v).regs = s.regs := rfl
@[simp] theorem emit_pc : (emit s v).pc = s.pc := rfl
@[simp] theorem emit_mem : (emit s v).mem = s.mem := rfl
@[simp] theorem emit_run : (emit s v).run = s.run := rfl
@[simp] theorem emit_out : (emit s v).out = s.out ++ [v] := rfl

@[simp] theorem setHalted_regs : (setHalted s).regs = s.regs := rfl
@[simp] theorem setHalted_pc : (setHalted s).pc = s.pc := rfl
@[simp] theorem setHalted_mem : (setHalted s).mem = s.mem := rfl
@[simp] theorem setHalted_run : (setHalted s).run = .halted := rfl
@[simp] theorem setHalted_out : (setHalted s).out = s.out := rfl

@[simp] theorem raiseFault_regs : (raiseFault s c).regs = s.regs := rfl
@[simp] theorem raiseFault_pc : (raiseFault s c).pc = s.pc := rfl
@[simp] theorem raiseFault_mem : (raiseFault s c).mem = s.mem := rfl
@[simp] theorem raiseFault_run : (raiseFault s c).run = .faulted c := rfl
@[simp] theorem raiseFault_out : (raiseFault s c).out = s.out := rfl

@[simp] theorem decSp_pc : (decSp s).pc = s.pc := rfl
@[simp] theorem decSp_mem : (decSp s).mem = s.mem := rfl
@[simp] theorem decSp_run : (decSp s).run = s.run := rfl
@[simp] theorem decSp_out : (decSp s).out = s.out := rfl

@[simp] theorem incSp_pc : (incSp s).pc = s.pc := rfl
@[simp] theorem incSp_mem : (incSp s).mem = s.mem := rfl
@[simp] theorem incSp_run : (incSp s).run = s.run := rfl
@[simp] theorem incSp_out : (incSp s).out = s.out := rfl

end

/-- A register read looks at the register file alone. -/
theorem regRead_congr {s t : State} (h : t.regs = s.regs) (k : Fin Config.numRegs) :
    regRead t k = regRead s k := by
  simp [regRead, h]

/-- A memory read looks at memory alone. -/
theorem memRead_congr {s t : State} (h : t.mem = s.mem) (x : Byte) : memRead t x = memRead s x := by
  simp [memRead, h]

/-- Reading a slot after writing one. -/
theorem regRead_regWrite (s : State) (k j : Fin Config.numRegs) (v : Byte) :
    regRead (regWrite s k v) j = if j = k then v else regRead s j := by
  simp only [regRead, regWrite, Fin.getElem_fin, Vector.getElem_set, Fin.ext_iff, eq_comm]

section
variable (s : State) (k j : Fin Config.numRegs) (a x v : Byte) (c : FaultCause)

@[simp] theorem regRead_regWrite_same : regRead (regWrite s k v) k = v := by
  simp [regRead_regWrite]

@[simp] theorem regRead_memWrite : regRead (memWrite s a v) j = regRead s j := rfl
@[simp] theorem regRead_setPc : regRead (setPc s a) j = regRead s j := rfl
@[simp] theorem regRead_advancePc : regRead (advancePc s a) j = regRead s j := rfl
@[simp] theorem regRead_emit : regRead (emit s v) j = regRead s j := rfl
@[simp] theorem regRead_setHalted : regRead (setHalted s) j = regRead s j := rfl
@[simp] theorem regRead_raiseFault : regRead (raiseFault s c) j = regRead s j := rfl

@[simp] theorem memRead_regWrite : memRead (regWrite s k v) x = memRead s x := rfl
@[simp] theorem memRead_setPc : memRead (setPc s a) x = memRead s x := rfl
@[simp] theorem memRead_advancePc : memRead (advancePc s a) x = memRead s x := rfl
@[simp] theorem memRead_emit : memRead (emit s v) x = memRead s x := rfl
@[simp] theorem memRead_setHalted : memRead (setHalted s) x = memRead s x := rfl
@[simp] theorem memRead_raiseFault : memRead (raiseFault s c) x = memRead s x := rfl
@[simp] theorem memRead_decSp : memRead (decSp s) x = memRead s x := rfl
@[simp] theorem memRead_incSp : memRead (incSp s) x = memRead s x := rfl

end

/-- The stack pointer after its decrement. -/
@[simp] theorem sp_decSp (s : State) : sp (decSp s) = sp s - 1 := by
  simp [decSp, sp]

/-- The stack pointer after its increment. -/
@[simp] theorem sp_incSp (s : State) : sp (incSp s) = sp s + 1 := by
  simp [incSp, sp]

/-- A register read after the stack pointer's decrement. -/
theorem regRead_decSp (s : State) (k : Fin Config.numRegs) :
    regRead (decSp s) k = if k = Config.spIndex then sp s - 1 else regRead s k := by
  simp only [decSp, regRead_regWrite]

/-- A register read after the stack pointer's increment. -/
theorem regRead_incSp (s : State) (k : Fin Config.numRegs) :
    regRead (incSp s) k = if k = Config.spIndex then sp s + 1 else regRead s k := by
  simp only [incSp, regRead_regWrite]

end Sys2Proof.Machine
end

