-- ==== Sys2Proof/Laws/Memory.lean ====
section
/-! SUPPORT. The laws of memory: a read after a write, and that every memory operation keeps the canonical form. -/

namespace Sys2Proof.Machine

@[simp] theorem memGet_nil (a : Nat) : memGet [] a = unlistedByte := rfl

theorem memGet_cons (c : Host.Cell) (m : Memory) (a : Nat) :
    memGet (c :: m) a = if c.1 = a then c.2 else memGet m a := rfl

/-- Dropping an address unlists it and no other. -/
theorem memGet_memDrop (m : Memory) (a b : Nat) :
    memGet (memDrop m a) b = if b = a then unlistedByte else memGet m b := by
  induction m with
  | nil => simp [memDrop]
  | cons c rest ih =>
    have step : memDrop (c :: rest) a = if c.1 = a then memDrop rest a else c :: memDrop rest a := by
      by_cases hc : c.1 = a <;> simp [memDrop, hc]
    rw [step, memGet_cons]
    by_cases hc : c.1 = a
    · rw [if_pos hc, ih]
      by_cases hb : b = a
      · simp [hb]
      · simp [hb, hc, Ne.symm hb]
    · rw [if_neg hc, memGet_cons, ih]
      by_cases hb : b = a
      · simp [hb, hc]
      · simp [hb]

/-- After an insertion at an address the list does not hold, that address reads as inserted and every other as before. -/
theorem memGet_memInsert (m : Memory) (a b : Nat) (v : Byte) (h : ∀ c ∈ m, c.1 ≠ a) :
    memGet (memInsert m a v) b = if b = a then v else memGet m b := by
  induction m with
  | nil => simp [memInsert, memGet_cons, eq_comm]
  | cons c rest ih =>
    have hc : c.1 ≠ a := h c (by simp)
    have hrest := ih fun d hd => h d (by simp [hd])
    unfold memInsert
    split
    · rw [memGet_cons]
      exact ite_congr (propext eq_comm) (fun _ => rfl) fun _ => rfl
    · rw [memGet_cons, memGet_cons, hrest]
      by_cases hb : b = a
      · simp [hb, hc]
      · simp [hb]

/-- What `memDrop` leaves holds no entry for the dropped address. -/
theorem memDrop_ne (m : Memory) (a : Nat) : ∀ c ∈ memDrop m a, c.1 ≠ a := by
  intro c hc
  simpa [memDrop] using (List.mem_filter.mp hc).2

/-- A write, then a read, on every list, canonical or not. -/
theorem memGet_memPut (m : Memory) (a b : Nat) (v : Byte) :
    memGet (memPut m a v) b = if b = a then v else memGet m b := by
  unfold memPut
  split
  · next hv => rw [memGet_memDrop, hv]
  · rw [memGet_memInsert _ _ _ _ (memDrop_ne m a), memGet_memDrop]
    split <;> rfl

/-- Reading a cell after writing one (R42). -/
theorem memRead_memWrite (s : State) (a b v : Byte) :
    memRead (memWrite s a v) b = if b = a then v else memRead s b := by
  simp only [memRead, memWrite_mem, memGet_memPut, BitVec.toNat_inj]

/-! ## The canonical form -/

theorem memInsert_mem (m : Memory) (a : Nat) (v : Byte) :
    ∀ c, c ∈ memInsert m a v ↔ c = (a, v) ∨ c ∈ m := by
  intro c
  induction m with
  | nil => simp [memInsert]
  | cons d rest ih =>
    unfold memInsert
    split
    · simp
    · simp only [List.mem_cons, ih]; tauto

theorem memDrop_wf {m : Memory} (h : Memory.wf m) (a : Nat) : Memory.wf (memDrop m a) :=
  ⟨h.1.filter _, fun c hc => h.2 c (List.mem_filter.mp hc).1⟩

theorem memInsert_wf {m : Memory} (h : Memory.wf m) {a : Nat} {v : Byte} (ha : a < Config.memSize)
    (hv : v ≠ unlistedByte) (hne : ∀ c ∈ m, c.1 ≠ a) : Memory.wf (memInsert m a v) := by
  refine ⟨?_, fun c hc => ?_⟩
  · have hp := h.1
    clear h
    induction m with
    | nil => simp [memInsert]
    | cons d rest ih =>
      obtain ⟨hd, hrest⟩ := List.pairwise_cons.mp hp
      have hda : d.1 ≠ a := hne d (by simp)
      unfold memInsert
      split
      · next hlt =>
        refine List.pairwise_cons.mpr ⟨fun c hc => ?_, hp⟩
        rcases List.mem_cons.mp hc with rfl | hc
        · exact hlt
        · exact lt_trans hlt (hd c hc)
      · next hge =>
        refine List.pairwise_cons.mpr ⟨fun c hc => ?_, ih (fun e he => hne e (by simp [he])) hrest⟩
        rcases (memInsert_mem rest a v c).mp hc with rfl | hc
        · exact lt_of_le_of_ne (not_lt.mp hge) hda
        · exact hd c hc
  · rcases (memInsert_mem m a v c).mp hc with rfl | hc
    · exact ⟨ha, hv⟩
    · exact h.2 c hc

/-- A write keeps the canonical form. -/
theorem memPut_wf {m : Memory} (h : Memory.wf m) {a : Nat} (v : Byte) (ha : a < Config.memSize) :
    Memory.wf (memPut m a v) := by
  unfold memPut
  split
  · exact memDrop_wf h a
  · next hv => exact memInsert_wf (memDrop_wf h a) ha hv (memDrop_ne m a)

theorem memWrite_wf {s : State} (h : Memory.wf s.mem) (a v : Byte) : Memory.wf (memWrite s a v).mem :=
  memPut_wf h v (by simpa using a.isLt)

theorem storeBytes_wf {s : State} (h : Memory.wf s.mem) (a : Byte) (bytes : List Byte) :
    Memory.wf (storeBytes s a bytes).mem := by
  induction bytes generalizing s a with
  | nil => exact h
  | cons b rest ih => exact ih (memWrite_wf h a b) _

theorem loadImage_wf {m : Memory} (h : Memory.wf m) {a : Nat} (image : List Byte)
    (ha : a + image.length ≤ Config.memSize) : Memory.wf (loadImage m a image) := by
  induction image generalizing m a with
  | nil => exact h
  | cons b rest ih =>
    simp only [List.length_cons] at ha
    exact ih (memPut_wf h b (by omega)) (by omega)

/-- What a load leaves at each address: the image's byte inside the image, the old byte elsewhere. -/
theorem memGet_loadImage (m : Memory) (a x : Nat) (image : List Byte) :
    memGet (loadImage m a image) x =
      if a ≤ x then (image[x - a]?).getD (memGet m x) else memGet m x := by
  induction image generalizing m a with
  | nil => simp [loadImage]
  | cons b rest ih =>
    rw [loadImage, ih, memGet_memPut]
    rcases lt_trichotomy x a with h | h | h
    · simp [Nat.not_le.mpr h, show ¬a + 1 ≤ x by omega, show x ≠ a by omega]
    · subst h; simp
    · obtain ⟨d, rfl⟩ : ∃ d, x = a + 1 + d := ⟨x - a - 1, by omega⟩
      simp [show a + 1 + d ≠ a by omega, show a + 1 + d - a = d + 1 by omega,
        show a ≤ a + 1 + d by omega]

theorem reset_mem_wf : Memory.wf State.reset.mem := by decide

end Sys2Proof.Machine
end

