-- ==== Sys2Proof/Laws/Ops.lean ====
section
/-! SUPPORT. What each shared operation can do, said once: the register operand check, the end of a cycle, fetching what was placed. -/

namespace Sys2Proof.Machine

/-! ## Register operands -/

@[simp] theorem regByte_toNat (k : Fin Config.numRegs) : (regByte k).toNat = k.val := by
  simp only [regByte, BitVec.toNat_ofNat]
  exact Nat.mod_eq_of_lt (lt_trans k.isLt (by decide))

@[simp] theorem regIndex_regByte (k : Fin Config.numRegs) : regIndex (regByte k) = some k := by
  simp [regIndex]

/-- A byte names a slot exactly when it is that slot's byte. -/
theorem regIndex_eq_some {operand : Byte} {k : Fin Config.numRegs} :
    regIndex operand = some k ↔ operand = regByte k := by
  constructor
  · intro h
    unfold regIndex at h
    split at h
    · simp only [Option.some.injEq] at h
      subst h
      exact BitVec.eq_of_toNat_eq (by simp)
    · cases h
  · rintro rfl
    simp

theorem regByte_inj {j k : Fin Config.numRegs} : regByte j = regByte k ↔ j = k :=
  ⟨fun h => by simpa using congrArg regIndex h, fun h => h ▸ rfl⟩

/-- A byte names no slot exactly when it is above 7 (R64). -/
theorem regIndex_eq_none {operand : Byte} : regIndex operand = none ↔ Config.numRegs ≤ operand.toNat := by
  unfold regIndex
  split <;> simp_all

/-- Every operand byte is the byte of a slot, or above 7. -/
theorem operand_cases (operand : Byte) :
    (∃ k, operand = regByte k) ∨ Config.numRegs ≤ operand.toNat := by
  cases h : regIndex operand with
  | some k => exact .inl ⟨k, regIndex_eq_some.mp h⟩
  | none => exact .inr (regIndex_eq_none.mp h)

section
variable {m : Mnemonic} {s : State}

@[simp] theorem withReg_regByte (k : Fin Config.numRegs) (go : Fin Config.numRegs → Completion) :
    withReg m (regByte k) s go = go k := by
  simp [withReg]

theorem withReg_missing {operand : Byte} (h : Config.numRegs ≤ operand.toNat)
    (go : Fin Config.numRegs → Completion) :
    withReg m operand s go = .raised (.invalidRegister s.pc (opcodeOf m) operand) := by
  simp [withReg, regIndex_eq_none.mpr h]

@[simp] theorem withRegs_regByte (j k : Fin Config.numRegs)
    (go : Fin Config.numRegs → Fin Config.numRegs → Completion) :
    withRegs m (regByte j) (regByte k) s go = go j k := by
  simp [withRegs]

theorem withRegs_missing_first {a b : Byte} (h : Config.numRegs ≤ a.toNat)
    (go : Fin Config.numRegs → Fin Config.numRegs → Completion) :
    withRegs m a b s go = .raised (.invalidRegister s.pc (opcodeOf m) a) :=
  withReg_missing h _

theorem withRegs_missing_second {b : Byte} (k : Fin Config.numRegs) (h : Config.numRegs ≤ b.toNat)
    (go : Fin Config.numRegs → Fin Config.numRegs → Completion) :
    withRegs m (regByte k) b s go = .raised (.invalidRegister s.pc (opcodeOf m) b) := by
  simp [withRegs, withReg_missing h]

/-! ## The end of a cycle -/

@[simp] theorem finishCycle_advanced (ir : Byte) (t : State) :
    finishCycle ir s (.advanced t) = advancePc t ir := rfl

@[simp] theorem finishCycle_jumped (ir target : Byte) (t : State) :
    finishCycle ir s (.jumped target t) = setPc t target := rfl

@[simp] theorem finishCycle_halted (ir : Byte) (t : State) :
    finishCycle ir s (.halted t) = setHalted t := rfl

@[simp] theorem finishCycle_raised (ir : Byte) (cause : FaultCause) :
    finishCycle ir s (.raised cause) = raiseFault s cause := rfl

end

/-! ## Fetching what was placed -/

/-- Storing an instruction's three bytes from `pc` upward and fetching gives them back, whatever `pc` is. -/
theorem fetch_storeBytes (s : State) (x y z : Byte) :
    fetch (storeBytes s s.pc [x, y, z]) = ⟨x, y, z⟩ := by
  have read : ∀ p, memRead (storeBytes s s.pc [x, y, z]) p =
      if p = s.pc + 1 + 1 then z else if p = s.pc + 1 then y else if p = s.pc then x else memRead s p :=
    fun p => by simp only [storeBytes, memRead_memWrite]
  have pc : (storeBytes s s.pc [x, y, z]).pc = s.pc := rfl
  have h1 : s.pc ≠ s.pc + 1 + 1 := by bv_omega
  have h2 : s.pc ≠ s.pc + 1 := by bv_omega
  have h3 : s.pc + 1 ≠ s.pc + 1 + 1 := by bv_omega
  have h4 : s.pc + 2 = s.pc + 1 + 1 := by bv_omega
  simp only [fetch, pc, read, if_true, if_neg h1, if_neg h2, if_neg h3, if_pos h4]

end Sys2Proof.Machine
end

