-- ==== Sys2Proof/Laws/PerInstr.lean ====
section
/-! SUPPORT. The statements made per instruction. -/

namespace Sys2Proof.Laws.Layout

/-- The layout of an instruction (R60, R61): its encoding starts with its opcode byte, and is one byte longer than the operand
count the opcode's top two bits hold. -/
def Statement (i : Instr) : Prop :=
  (encode i).head? = some (opcodeOf (mnemonicOf i)) ∧
    (encode i).length = (operandField (opcodeOf (mnemonicOf i))).toNat + 1

/-- The layout of every instruction, from the operand count of its row. -/
theorem of_count (i : Instr) (h : (operandBytes i).length = operandCount (mnemonicOf i)) : Statement i := by
  refine ⟨rfl, ?_⟩
  rw [operandField_opcodeOf, encode, List.length_cons, h]
  cases mnemonicOf i <;> rfl

theorem hlt : Statement .hlt := of_count _ rfl
theorem ret : Statement .ret := of_count _ rfl
theorem push (a : Byte) : Statement (.push a) := of_count _ rfl
theorem pop (a : Byte) : Statement (.pop a) := of_count _ rfl
theorem prn (a : Byte) : Statement (.prn a) := of_count _ rfl
theorem call (a : Byte) : Statement (.call a) := of_count _ rfl
theorem jmp (a : Byte) : Statement (.jmp a) := of_count _ rfl
theorem jeq (a : Byte) : Statement (.jeq a) := of_count _ rfl
theorem jne (a : Byte) : Statement (.jne a) := of_count _ rfl
theorem ldi (a imm : Byte) : Statement (.ldi a imm) := of_count _ rfl
theorem add (a b : Byte) : Statement (.add a b) := of_count _ rfl
theorem mult (a b : Byte) : Statement (.mult a b) := of_count _ rfl
theorem cmp (a b : Byte) : Statement (.cmp a b) := of_count _ rfl

end Sys2Proof.Laws.Layout
end

