-- ==== Sys2Proof/Laws/Step.lean ====
section
/-! SUPPORT. What the meaning of each instruction is on operands that name registers, as one equation each, and what a step can do. -/

namespace Sys2Proof.Machine

section
variable (s : State) (a b : Fin Config.numRegs) (imm : Byte)

theorem execLdi_eq : execLdi (regByte a) imm s = .next (advancePc (regWrite s a imm) (opcodeOf .ldi)) := by
  simp [execLdi, complete]

theorem execAdd_eq : execAdd (regByte a) (regByte b) s =
    .next (advancePc (regWrite s a (alu .add (regRead s a) (regRead s b))) (opcodeOf .add)) := by
  simp [execAdd, complete, aluHandler]

theorem execMult_eq : execMult (regByte a) (regByte b) s =
    .next (advancePc (regWrite s a (alu .mul (regRead s a) (regRead s b))) (opcodeOf .mult)) := by
  simp [execMult, complete, aluHandler]

theorem execPush_eq : execPush (regByte a) s =
    .next (advancePc (memWrite (decSp s) (sp s - 1) (regRead (decSp s) a)) (opcodeOf .push)) := by
  simp [execPush, complete]

theorem execPop_eq : execPop (regByte a) s =
    .next (advancePc (incSp (regWrite s a (memRead s (sp s)))) (opcodeOf .pop)) := by
  simp [execPop, complete]

theorem execCmp_eq : execCmp (regByte a) (regByte b) s =
    .next (advancePc (regWrite s Config.flIndex (compareCode (regRead s a) (regRead s b)))
      (opcodeOf .cmp)) := by
  simp [execCmp, complete]

theorem execJmp_eq : execJmp (regByte a) s = .next (setPc s (regRead s a)) := by
  simp [execJmp, complete, jumpHandler]

theorem execJeq_taken (h : jeqTaken (fl s) = true) :
    execJeq (regByte a) s = .next (setPc s (regRead s a)) := by
  simp [execJeq, complete, branchHandler, jumpHandler, h]

theorem execJeq_not_taken (h : jeqTaken (fl s) = false) (operand : Byte) :
    execJeq operand s = .next (advancePc s (opcodeOf .jeq)) := by
  simp [execJeq, complete, branchHandler, h]

theorem execJne_taken (h : jneTaken (fl s) = true) :
    execJne (regByte a) s = .next (setPc s (regRead s a)) := by
  simp [execJne, complete, branchHandler, jumpHandler, h]

theorem execJne_not_taken (h : jneTaken (fl s) = false) (operand : Byte) :
    execJne operand s = .next (advancePc s (opcodeOf .jne)) := by
  simp [execJne, complete, branchHandler, h]

theorem execCall_eq : execCall (regByte a) s =
    .next (setPc (memWrite (decSp s) (sp s - 1) (s.pc + 2)) (regRead (decSp s) a)) := by
  simp [execCall, complete]

theorem execRet_eq : execRet s = .next (setPc (incSp s) (memRead s (sp s))) := rfl

theorem execPrn_eq : execPrn (regByte a) s =
    .next (advancePc (emit s (regRead s a)) (opcodeOf .prn)) := by
  simp [execPrn, complete]

theorem execHlt_eq : execHlt s = .next (setHalted s) := rfl

end

/-- Everything a step that answers a next state can have done (R86): it ran from a running state, and either ran the decoded
instruction or raised InvalidOpcode. -/
theorem step_cases {s t : State} (h : step s = .next t) :
    s.run = .running ∧
      ((∃ m, memRead s s.pc = opcodeOf m ∧
          exec (instrOf m (memRead s (s.pc + 1)) (memRead s (s.pc + 2))) s = .next t) ∨
        (decodeOpcode (memRead s s.pc) = none ∧
          t = raiseFault s (.invalidOpcode s.pc (memRead s s.pc)))) := by
  unfold step at h
  split at h
  · next hrun =>
    refine ⟨hrun, ?_⟩
    split at h
    · next i hi =>
      obtain ⟨m, hm, rfl⟩ := decode_eq_ok.mp hi
      exact .inl ⟨m, hm, h⟩
    · next ir hi =>
      obtain ⟨hnone, he⟩ := decode_eq_error.mp hi
      cases he
      simp only [execInvalidOpcode, Host.Outcome.next.injEq] at h
      exact .inr ⟨hnone, h.symm⟩
  · cases h
  · cases h

/-- A run of one more step is a step and then the rest, stated for any machine (for one machine the recursion of the host's `run`
does not unfold by itself). -/
theorem run_succ (M : Host.Core) {k : Nat} {s t : M.State} (h : Host.Core.run M (k + 1) s = .next t) :
    ∃ u, M.step s = .next u ∧ Host.Core.run M k u = .next t := by
  unfold Host.Core.run at h
  split at h
  · next hstep => exact ⟨_, hstep, h⟩
  · cases h
  · cases h

/-! ## What an instruction can do -/

theorem jeqTaken_iff {flags : Byte} : jeqTaken flags = true ↔ flags = 1 := by
  simp [jeqTaken, flEq]

theorem jneTaken_iff {flags : Byte} : jneTaken flags = true ↔ flags = 2 ∨ flags = 4 := by
  simp [jneTaken, flGt, flLt]

theorem regByte_le (k : Fin Config.numRegs) : (regByte k).toNat ≤ 7 := by
  rw [regByte_toNat]
  exact Nat.le_of_lt_succ k.isLt

/-- The operand bytes whose register an instruction accesses in `s`, in the order they are checked: a conditional jump accesses its
operand only when taken (R65), and the second operand is reached only past a good first one (R177). -/
def accessed (i : Instr) (s : State) : List Byte :=
  match i with
  | .hlt => []
  | .ret => []
  | .push a => [a]
  | .pop a => [a]
  | .prn a => [a]
  | .call a => [a]
  | .jmp a => [a]
  | .jeq a => if jeqTaken (fl s) then [a] else []
  | .jne a => if jneTaken (fl s) then [a] else []
  | .ldi a _ => [a]
  | .add a b => [a, b]
  | .mult a b => [a, b]
  | .cmp a b => [a, b]

/-- The first accessed operand byte that names no register, if there is one. -/
def missing (i : Instr) (s : State) : Option Byte :=
  (accessed i s).find? fun k => decide (7 < k.toNat)

/-- How a one-operand handler ends: it raises on its operand, or completes with the latch as it was. -/
theorem complete_withReg {i : Instr} {m : Mnemonic} {s : State} {a : Byte} {go : Fin Config.numRegs → Completion}
    (hexec : exec i s = complete m s (withReg m a s go)) (hacc : accessed i s = [a]) (hm : mnemonicOf i = m)
    (hgo : ∀ r, ∃ t, (go r = .advanced t ∨ ∃ v, go r = .jumped v t) ∧ t.run = s.run) :
    (∃ k, missing i s = some k ∧
        exec i s = .next (raiseFault s (.invalidRegister s.pc (opcodeOf (mnemonicOf i)) k))) ∨
      (missing i s = none ∧ ∃ t, exec i s = .next t ∧ t.run = s.run) := by
  subst hm
  rw [hexec, missing, hacc]
  rcases operand_cases a with ⟨r, rfl⟩ | h
  · refine .inr ⟨by simpa using regByte_le r, ?_⟩
    obtain ⟨t, ht | ⟨v, ht⟩, hrun⟩ := hgo r
    · exact ⟨advancePc t _, by rw [withReg_regByte, ht]; rfl, hrun⟩
    · exact ⟨setPc t v, by rw [withReg_regByte, ht]; rfl, hrun⟩
  · have h7 : 7 < a.toNat := h
    exact .inl ⟨a, by simp [h7], by rw [withReg_missing h]; rfl⟩

/-- How a two-operand handler ends. -/
theorem complete_withRegs {i : Instr} {m : Mnemonic} {s : State} {a b : Byte}
    {go : Fin Config.numRegs → Fin Config.numRegs → Completion}
    (hexec : exec i s = complete m s (withRegs m a b s go)) (hacc : accessed i s = [a, b])
    (hm : mnemonicOf i = m) (hgo : ∀ j k, ∃ t, go j k = .advanced t ∧ t.run = s.run) :
    (∃ k, missing i s = some k ∧
        exec i s = .next (raiseFault s (.invalidRegister s.pc (opcodeOf (mnemonicOf i)) k))) ∨
      (missing i s = none ∧ ∃ t, exec i s = .next t ∧ t.run = s.run) := by
  subst hm
  rw [hexec, missing, hacc]
  rcases operand_cases a with ⟨j, rfl⟩ | h
  · have hj : ¬7 < (regByte j).toNat := Nat.not_lt.mpr (regByte_le j)
    rcases operand_cases b with ⟨k, rfl⟩ | h
    · have hk : ¬7 < (regByte k).toNat := Nat.not_lt.mpr (regByte_le k)
      obtain ⟨t, ht, hrun⟩ := hgo j k
      exact .inr ⟨by rw [List.find?_cons_of_neg (by simpa using hj), List.find?_cons_of_neg (by simpa using hk),
        List.find?_nil], advancePc t _, by rw [withRegs_regByte, ht]; rfl, hrun⟩
    · have h7 : 7 < b.toNat := h
      exact .inl ⟨b, by rw [List.find?_cons_of_neg (by simpa using hj), List.find?_cons_of_pos (by simpa using h7)],
        by rw [withRegs_missing_second j h]; rfl⟩
  · have h7 : 7 < a.toNat := h
    exact .inl ⟨a, by rw [List.find?_cons_of_pos (by simpa using h7)],
      by rw [withRegs_missing_first h]; rfl⟩

/-- Everything an instruction can do to the latch: raise InvalidRegister on the first missing register it accesses and change
nothing else, halt (HLT), or complete with the latch as it was. -/
theorem exec_cases (i : Instr) (s : State) :
    (∃ k, missing i s = some k ∧
        exec i s = .next (raiseFault s (.invalidRegister s.pc (opcodeOf (mnemonicOf i)) k))) ∨
      (missing i s = none ∧ i = .hlt ∧ exec i s = .next (setHalted s)) ∨
      (missing i s = none ∧ i ≠ .hlt ∧ ∃ t, exec i s = .next t ∧ t.run = s.run) := by
  have lift {A B C D E : Prop} (h : D) (h' : A ∨ (B ∧ E)) : A ∨ C ∨ (B ∧ D ∧ E) :=
    h'.imp_right fun ⟨hb, he⟩ => .inr ⟨hb, h, he⟩
  have quiet {t : State} {i : Instr} (hacc : accessed i s = []) (he : exec i s = .next t) (hrun : t.run = s.run) :
      (∃ k, missing i s = some k ∧
        exec i s = .next (raiseFault s (.invalidRegister s.pc (opcodeOf (mnemonicOf i)) k))) ∨
      (missing i s = none ∧ ∃ t, exec i s = .next t ∧ t.run = s.run) :=
    .inr ⟨by rw [missing, hacc]; rfl, t, he, hrun⟩
  cases i with
  | hlt => exact .inr (.inl ⟨rfl, rfl, rfl⟩)
  | ret => exact lift (by simp) (quiet rfl (execRet_eq s) rfl)
  | push a => exact lift (by simp) (complete_withReg (go := fun r => .advanced _) rfl rfl rfl fun r => ⟨_, .inl rfl, rfl⟩)
  | pop a => exact lift (by simp) (complete_withReg (go := fun r => .advanced _) rfl rfl rfl fun r => ⟨_, .inl rfl, rfl⟩)
  | prn a => exact lift (by simp) (complete_withReg (go := fun r => .advanced _) rfl rfl rfl fun r => ⟨_, .inl rfl, rfl⟩)
  | call a => exact lift (by simp) (complete_withReg (go := fun r => .jumped _ _) rfl rfl rfl fun r => ⟨_, .inr ⟨_, rfl⟩, rfl⟩)
  | jmp a => exact lift (by simp) (complete_withReg (go := fun r => .jumped _ _) rfl rfl rfl fun r => ⟨_, .inr ⟨_, rfl⟩, rfl⟩)
  | ldi a imm => exact lift (by simp) (complete_withReg (go := fun r => .advanced _) rfl rfl rfl fun r => ⟨_, .inl rfl, rfl⟩)
  | add a b => exact lift (by simp) (complete_withRegs (go := fun j k => .advanced _) rfl rfl rfl fun j k => ⟨_, rfl, rfl⟩)
  | mult a b => exact lift (by simp) (complete_withRegs (go := fun j k => .advanced _) rfl rfl rfl fun j k => ⟨_, rfl, rfl⟩)
  | cmp a b => exact lift (by simp) (complete_withRegs (go := fun j k => .advanced _) rfl rfl rfl fun j k => ⟨_, rfl, rfl⟩)
  | jeq a =>
    cases h : jeqTaken (fl s) with
    | false => exact lift (by simp) (quiet (by simp [accessed, h]) (execJeq_not_taken s h a) rfl)
    | true =>
      exact lift (by simp) (complete_withReg (m := .jeq) (a := a) (go := fun r => .jumped (regRead s r) s)
        (by simp only [exec, execJeq, h, branchHandler, jumpHandler, if_true]) (by simp [accessed, h]) rfl
        fun r => ⟨_, .inr ⟨_, rfl⟩, rfl⟩)
  | jne a =>
    cases h : jneTaken (fl s) with
    | false => exact lift (by simp) (quiet (by simp [accessed, h]) (execJne_not_taken s h a) rfl)
    | true =>
      exact lift (by simp) (complete_withReg (m := .jne) (a := a) (go := fun r => .jumped (regRead s r) s)
        (by simp only [exec, execJne, h, branchHandler, jumpHandler, if_true]) (by simp [accessed, h]) rfl
        fun r => ⟨_, .inr ⟨_, rfl⟩, rfl⟩)

/-- What the cycle of `i` leaves when every register it accesses exists: one form per instruction. -/
def Completes (i : Instr) (s t : State) : Prop :=
  match i with
  | .hlt => t = setHalted s
  | .ret => t = setPc (incSp s) (memRead s (sp s))
  | .push a => ∃ r, a = regByte r ∧
      t = advancePc (memWrite (decSp s) (sp s - 1) (regRead (decSp s) r)) (opcodeOf .push)
  | .pop a => ∃ r, a = regByte r ∧ t = advancePc (incSp (regWrite s r (memRead s (sp s)))) (opcodeOf .pop)
  | .prn a => ∃ r, a = regByte r ∧ t = advancePc (emit s (regRead s r)) (opcodeOf .prn)
  | .call a => ∃ r, a = regByte r ∧
      t = setPc (memWrite (decSp s) (sp s - 1) (s.pc + 2)) (regRead (decSp s) r)
  | .jmp a => ∃ r, a = regByte r ∧ t = setPc s (regRead s r)
  | .jeq a => (jeqTaken (fl s) = true ∧ ∃ r, a = regByte r ∧ t = setPc s (regRead s r)) ∨
      (jeqTaken (fl s) = false ∧ t = advancePc s (opcodeOf .jeq))
  | .jne a => (jneTaken (fl s) = true ∧ ∃ r, a = regByte r ∧ t = setPc s (regRead s r)) ∨
      (jneTaken (fl s) = false ∧ t = advancePc s (opcodeOf .jne))
  | .ldi a imm => ∃ r, a = regByte r ∧ t = advancePc (regWrite s r imm) (opcodeOf .ldi)
  | .add a b => ∃ j k, a = regByte j ∧ b = regByte k ∧
      t = advancePc (regWrite s j (alu .add (regRead s j) (regRead s k))) (opcodeOf .add)
  | .mult a b => ∃ j k, a = regByte j ∧ b = regByte k ∧
      t = advancePc (regWrite s j (alu .mul (regRead s j) (regRead s k))) (opcodeOf .mult)
  | .cmp a b => ∃ j k, a = regByte j ∧ b = regByte k ∧
      t = advancePc (regWrite s Config.flIndex (compareCode (regRead s j) (regRead s k))) (opcodeOf .cmp)

/-- An accessed operand byte that is not missing names a slot. -/
theorem regByte_of_accessed {i : Instr} {s : State} (h : missing i s = none) {a : Byte}
    (ha : a ∈ accessed i s) : ∃ r, a = regByte r := by
  refine (operand_cases a).resolve_right fun h8 => ?_
  have h7 : 7 < a.toNat := h8
  exact List.find?_eq_none.mp h a ha (by simpa using h7)

/-- Everything an instruction can do: raise InvalidRegister on the first missing register it accesses, or complete in its own
form. Later proofs cite this and unfold no meaning. -/
theorem exec_inversion {i : Instr} {s t : State} (h : exec i s = .next t) :
    (∃ k, missing i s = some k ∧
        t = raiseFault s (.invalidRegister s.pc (opcodeOf (mnemonicOf i)) k)) ∨
      (missing i s = none ∧ Completes i s t) := by
  have split : (∃ k, missing i s = some k ∧
      t = raiseFault s (.invalidRegister s.pc (opcodeOf (mnemonicOf i)) k)) ∨ missing i s = none := by
    rcases exec_cases i s with ⟨k, hk, e⟩ | ⟨hn, _⟩ | ⟨hn, _⟩
    · rw [h, Host.Outcome.next.injEq] at e
      exact .inl ⟨k, hk, e⟩
    · exact .inr hn
    · exact .inr hn
  refine split.imp_right fun hn => ⟨hn, ?_⟩
  have is {u : State} (e : exec i s = .next u) : t = u := by
    rwa [h, Host.Outcome.next.injEq] at e
  have slot {a : Byte} (ha : a ∈ accessed i s) := regByte_of_accessed hn ha
  cases i with
  | hlt => exact is (execHlt_eq s)
  | ret => exact is (execRet_eq s)
  | push a =>
    obtain ⟨r, rfl⟩ := @slot a (by simp [accessed])
    exact ⟨r, rfl, is (execPush_eq s r)⟩
  | pop a =>
    obtain ⟨r, rfl⟩ := @slot a (by simp [accessed])
    exact ⟨r, rfl, is (execPop_eq s r)⟩
  | prn a =>
    obtain ⟨r, rfl⟩ := @slot a (by simp [accessed])
    exact ⟨r, rfl, is (execPrn_eq s r)⟩
  | call a =>
    obtain ⟨r, rfl⟩ := @slot a (by simp [accessed])
    exact ⟨r, rfl, is (execCall_eq s r)⟩
  | jmp a =>
    obtain ⟨r, rfl⟩ := @slot a (by simp [accessed])
    exact ⟨r, rfl, is (execJmp_eq s r)⟩
  | jeq a =>
    cases hj : jeqTaken (fl s) with
    | true =>
      obtain ⟨r, rfl⟩ := @slot a (by simp [accessed, hj])
      exact .inl ⟨hj, r, rfl, is (execJeq_taken s r hj)⟩
    | false => exact .inr ⟨hj, is (execJeq_not_taken s hj a)⟩
  | jne a =>
    cases hj : jneTaken (fl s) with
    | true =>
      obtain ⟨r, rfl⟩ := @slot a (by simp [accessed, hj])
      exact .inl ⟨hj, r, rfl, is (execJne_taken s r hj)⟩
    | false => exact .inr ⟨hj, is (execJne_not_taken s hj a)⟩
  | ldi a imm =>
    obtain ⟨r, rfl⟩ := @slot a (by simp [accessed])
    exact ⟨r, rfl, is (execLdi_eq s r imm)⟩
  | add a b =>
    obtain ⟨j, rfl⟩ := @slot a (by simp [accessed])
    obtain ⟨k, rfl⟩ := @slot b (by simp [accessed])
    exact ⟨j, k, rfl, rfl, is (execAdd_eq s j k)⟩
  | mult a b =>
    obtain ⟨j, rfl⟩ := @slot a (by simp [accessed])
    obtain ⟨k, rfl⟩ := @slot b (by simp [accessed])
    exact ⟨j, k, rfl, rfl, is (execMult_eq s j k)⟩
  | cmp a b =>
    obtain ⟨j, rfl⟩ := @slot a (by simp [accessed])
    obtain ⟨k, rfl⟩ := @slot b (by simp [accessed])
    exact ⟨j, k, rfl, rfl, is (execCmp_eq s j k)⟩

end Sys2Proof.Machine
end

