-- ==== Sys2Proof/Tests/Slice0.lean ====
section
/-! SUPPORT. Tests: expected values are the spec's own (95_test_vectors.md, by vector id) or worked out by hand from the rule cited;
and the witnesses that the hypotheses of each statement can be met. -/

namespace Sys2Proof.Tests

open Sys2Proof.Machine

/-! ## Helpers -/

/-- The reset machine with `pc` set and bytes placed from `pc` upward. -/
def machineAt (pc : Byte) (bytes : List Byte) : State :=
  storeBytes { State.reset with pc := pc } pc bytes

/-- The next state of an outcome, if it is one. -/
def nextOf : Host.Outcome State Fault Refusal → Option State
  | .next t => some t
  | .fault _ => none
  | .refused _ => none

/-- One observation of the state after one step. -/
def afterStep {α : Type} (s : State) (look : State → α) : Option α :=
  (nextOf (step s)).map look

/-! ## Well-formedness: an ill-formed term for each check (R64) -/

theorem test_wf_accepts_seven : Instr.wellFormed (.add 7 7) = true := by decide
theorem test_wf_immediate_unchecked : Instr.wellFormed (.ldi 7 255) = true := by decide
theorem test_wf_refuses_push : Instr.wellFormed (.push 8) = false := by decide
theorem test_wf_refuses_pop : Instr.wellFormed (.pop 8) = false := by decide
theorem test_wf_refuses_prn : Instr.wellFormed (.prn 8) = false := by decide
theorem test_wf_refuses_call : Instr.wellFormed (.call 128) = false := by decide
theorem test_wf_refuses_jmp : Instr.wellFormed (.jmp 8) = false := by decide
theorem test_wf_refuses_jeq : Instr.wellFormed (.jeq 255) = false := by decide
theorem test_wf_refuses_jne : Instr.wellFormed (.jne 8) = false := by decide
theorem test_wf_refuses_ldi : Instr.wellFormed (.ldi 8 0) = false := by decide
theorem test_wf_refuses_add_first : Instr.wellFormed (.add 8 0) = false := by decide
theorem test_wf_refuses_add_second : Instr.wellFormed (.add 0 8) = false := by decide
theorem test_wf_refuses_mult_first : Instr.wellFormed (.mult 8 0) = false := by decide
theorem test_wf_refuses_mult_second : Instr.wellFormed (.mult 0 8) = false := by decide
theorem test_wf_refuses_cmp_first : Instr.wellFormed (.cmp 8 0) = false := by decide
theorem test_wf_refuses_cmp_second : Instr.wellFormed (.cmp 0 8) = false := by decide

/-! ## Decoding: each constructor from its bits in R66's table -/

theorem test_decode_hlt : decode 0b00000001 0xFF 0xFF = .ok .hlt := by decide
theorem test_decode_ret : decode 0b00010001 0xFF 0xFF = .ok .ret := by decide
theorem test_decode_push : decode 0b01000101 0b00000010 0xFF = .ok (.push 2) := by decide
theorem test_decode_pop : decode 0b01000110 0b00000011 0xFF = .ok (.pop 3) := by decide
theorem test_decode_prn : decode 0b01000111 0b00000000 0xFF = .ok (.prn 0) := by decide
theorem test_decode_call : decode 0b01010000 0b00000001 0xFF = .ok (.call 1) := by decide
theorem test_decode_jmp : decode 0b01010100 0b00000001 0xFF = .ok (.jmp 1) := by decide
theorem test_decode_jeq : decode 0b01010101 0b11111111 0xFF = .ok (.jeq 255) := by decide
theorem test_decode_jne : decode 0b01010110 0b00000011 0xFF = .ok (.jne 3) := by decide
theorem test_decode_ldi : decode 0b10000010 0b00000000 0b00101010 = .ok (.ldi 0 42) := by decide
theorem test_decode_add : decode 0b10100000 0b00000000 0b00000001 = .ok (.add 0 1) := by decide
theorem test_decode_mult : decode 0b10100010 0b00000010 0b00000101 = .ok (.mult 2 5) := by decide
theorem test_decode_cmp : decode 0b10100111 0b00000110 0b00000111 = .ok (.cmp 6 7) := by decide

/-- V-L1, and V-L7 (bits 7:6 both 1). -/
theorem test_decode_refuses_zero_and_k3 :
    decode 0x00 0x01 0x02 = .error (.invalidOpcode 0x00) ∧ decode 0xC1 0x01 0x02 = .error (.invalidOpcode 0xC1) := by
  decide

/-- The byte order of an instruction given as one number: `82 01 FF`, V-A1's bytes. -/
theorem test_decode_table_word : decodeTableWord 24 0xFF0182 = some (.ldi 1 255) := by decide

/-! ## One step each, from the spec's vectors -/

/-- V-A1. -/
theorem test_ldi : afterStep (machineAt 0x20 [0x82, 0x01, 0xFF]) (fun t => (regRead t 1, t.pc)) = some (0xFF, 0x23) := by
  decide

/-- V-L9: operand fetch and advance wrap past 255. -/
theorem test_ldi_wraps : afterStep (machineAt 0xFE [0x82, 0x03, 0x99]) (fun t => (regRead t 3, t.pc)) = some (0x99, 0x01) := by
  decide

/-- V-A3: 200 + 100 is 44. -/
theorem test_add_wraps :
    afterStep (regWrite (regWrite (machineAt 0 [0xA0, 0x00, 0x01]) 0 200) 1 100) (fun t => (regRead t 0, t.pc))
      = some (0x2C, 3) := by decide

/-- V-A6: the stack pointer as destination. -/
theorem test_add_sp :
    afterStep (regWrite (machineAt 0 [0xA0, 0x07, 0x01]) 1 4) (fun t => sp t) = some 0xF8 := by decide

/-- V-A10: 255 * 255 is 65025, low byte 1. -/
theorem test_mult_low_byte :
    afterStep (regWrite (machineAt 0 [0xA2, 0x00, 0x00]) 0 255) (fun t => regRead t 0) = some 1 := by decide

/-- S2, instance b. -/
theorem test_mult_example :
    afterStep (regWrite (regWrite (machineAt 0 [0xA2, 0x00, 0x01]) 0 5) 1 3) (fun t => (regRead t 0, regRead t 1, t.pc))
      = some (15, 3, 3) := by decide

/-- V-ST1: the decrement wraps. -/
theorem test_push_wraps :
    afterStep (regWrite (regWrite (machineAt 0x10 [0x45, 0x00]) 0 0x5A) 7 0x00) (fun t => (sp t, memRead t 0xFF, t.pc))
      = some (0xFF, 0x5A, 0x12) := by decide

/-- V-ST3: PUSH R7 stores the decremented pointer. -/
theorem test_push_sp :
    afterStep (machineAt 0x10 [0x45, 0x07]) (fun t => (sp t, memRead t 0xF3)) = some (0xF3, 0xF3) := by decide

/-- V-ST2: the increment wraps. -/
theorem test_pop_wraps :
    afterStep (memWrite (regWrite (machineAt 0x10 [0x46, 0x00]) 7 0xFF) 0xFF 0x77) (fun t => (regRead t 0, sp t, t.pc))
      = some (0x77, 0x00, 0x12) := by decide

/-- V-ST4: POP R7 loads, then increments. -/
theorem test_pop_sp :
    afterStep (memWrite (regWrite (machineAt 0x10 [0x46, 0x07]) 7 0xF3) 0xF3 0x20) (fun t => sp t) = some 0x21 := by
  decide

/-- V-C1: 0 against 255 is less. -/
theorem test_cmp_less :
    afterStep (regWrite (machineAt 0 [0xA7, 0x00, 0x01]) 1 255) (fun t => (fl t, t.pc)) = some (4, 3) := by decide

/-- V-C5: FL itself as the second operand is read before it is written. -/
theorem test_cmp_reads_old_fl :
    afterStep (regWrite (regWrite (machineAt 0 [0xA7, 0x00, 0x06]) 0 1) 6 2) (fun t => fl t) = some 4 := by decide

/-- V-J12: taken through the flags slot itself. -/
theorem test_jeq_taken :
    afterStep (regWrite (machineAt 0x20 [0x55, 0x06]) 6 1) (fun t => t.pc) = some 0x01 := by decide

/-- V-J9: not taken, the operand byte FF is not examined. -/
theorem test_jeq_not_taken :
    afterStep (regWrite (machineAt 0x20 [0x55, 0xFF]) 6 4) (fun t => (t.pc, t.run)) = some (0x22, .running) := by decide

/-- V-J7. -/
theorem test_jne_taken :
    afterStep (regWrite (regWrite (machineAt 0x20 [0x56, 0x02]) 2 0x80) 6 4) (fun t => t.pc) = some 0x80 := by decide

/-- V-J4: the reset flags, 0, do not jump. -/
theorem test_jne_reset_flags :
    afterStep (regWrite (machineAt 0x20 [0x56, 0x02]) 2 0x80) (fun t => t.pc) = some 0x22 := by decide

/-- V-J14. -/
theorem test_jmp :
    afterStep (regWrite (machineAt 0x05 [0x54, 0x01]) 1 0x40) (fun t => t.pc) = some 0x40 := by decide

/-- V-R1: CALL R7 jumps to the decremented pointer. -/
theorem test_call_sp :
    afterStep (machineAt 0x10 [0x50, 0x07]) (fun t => (sp t, memRead t 0xF3, t.pc)) = some (0xF3, 0x12, 0xF3) := by decide

/-- V-R3: the return address wraps. -/
theorem test_call_wraps :
    afterStep (regWrite (machineAt 0xFF [0x50, 0x01]) 1 0x40) (fun t => (memRead t 0xF3, t.pc)) = some (0x01, 0x40) := by
  decide

/-- V-R6. -/
theorem test_ret_wraps :
    afterStep (memWrite (regWrite (machineAt 0x10 [0x11]) 7 0xFF) 0xFF 0x33) (fun t => (t.pc, sp t))
      = some (0x33, 0x00) := by decide

/-- V-O2: a second value goes to the end of the output. -/
theorem test_prn_appends :
    afterStep { machineAt 3 [0x47, 0x07] with out := [1] } (fun t => (t.out, t.pc)) = some ([1, 244], 5) := by decide

/-- V-L11: HLT at 255. -/
theorem test_hlt : afterStep (machineAt 0xFF [0x01]) (fun t => (t.run, t.pc)) = some (.halted, 0xFF) := by decide

/-! ## Faults -/

/-- V-L7. -/
theorem test_invalid_opcode :
    afterStep (machineAt 0x20 [0xC1, 0x01, 0x02]) (fun t => (t.run, t.pc))
      = some (.faulted (.invalidOpcode 0x20 0xC1), 0x20) := by decide

/-- V-A7: both operands bad, `a` is reported. -/
theorem test_invalid_register_first :
    afterStep (machineAt 0x20 [0xA0, 0x09, 0x0A]) (fun t => t.run)
      = some (.faulted (.invalidRegister 0x20 0xA0 0x09)) := by decide

/-- V-ST7: SP and the cell below it stay. -/
theorem test_push_fault_is_precise :
    afterStep (machineAt 0x20 [0x45, 0x08]) (fun t => (t.run, sp t, memRead t 0xF3))
      = some (.faulted (.invalidRegister 0x20 0x45 0x08), 0xF4, 0x00) := by decide

/-- V-O5. -/
theorem test_no_step_when_halted : nextOf (step { State.reset with run := .halted }) = none := by decide

/-! ## Reset, and the host's placing of an instruction -/

/-- V-Z1. -/
theorem test_reset_registers :
    (List.finRange 8).map (regRead State.reset) = [0, 0, 0, 0, 0, 0, 0, 0xF4] := by decide

/-- V-Z2. -/
theorem test_reset_with_image :
    (nextOf (hostReset [0x01] State.reset)).bind (fun s => afterStep s fun t => (t.run, t.pc)) = some (.halted, 0) := by
  decide

/-- A zero byte written back leaves no entry: equal memories are equal data. -/
theorem test_memory_canonical :
    memPut (memPut (memPut [] 5 2) 3 1) 5 0 = [(3, 1)] := by decide

/-- The instruction `45 02` (PUSH R2) as the word 0x0245, run as the first one after reset. -/
theorem test_with_fetch_word :
    afterStep (State.reset.withFetchWord 16 0x0245) (fun t => (sp t, t.pc)) = some (0xF3, 2) := by decide

/-! ## Witnesses: the hypotheses of each statement are met, at the boundaries of each clause -/

/-- The first byte above the register numbers, which every `7 < x.toNat` clause meets. -/
theorem witness_first_missing_register : 7 < (8 : Byte).toNat ∧ 7 < (255 : Byte).toNat := by decide

theorem witness_LdiLoadsImmediate : 7 < (8 : Byte).toNat ∧
    exec (.ldi 8 5) State.reset = .next (raiseFault State.reset (.invalidRegister 0 0x82 8)) := ⟨by decide, rfl⟩

theorem witness_AddWrapsModulo256 : 7 < (8 : Byte).toNat ∧
    exec (.add 8 0) State.reset = .next (raiseFault State.reset (.invalidRegister 0 0xA0 8)) ∧
    exec (.add (regByte 7) 8) State.reset = .next (raiseFault State.reset (.invalidRegister 0 0xA0 8)) :=
  ⟨by decide, rfl, rfl⟩

theorem witness_MultKeepsLowByte : 7 < (8 : Byte).toNat ∧
    exec (.mult 8 0) State.reset = .next (raiseFault State.reset (.invalidRegister 0 0xA2 8)) ∧
    exec (.mult (regByte 7) 8) State.reset = .next (raiseFault State.reset (.invalidRegister 0 0xA2 8)) :=
  ⟨by decide, rfl, rfl⟩

theorem witness_PushStoresAfterDecrement : 7 < (8 : Byte).toNat ∧
    exec (.push 8) State.reset = .next (raiseFault State.reset (.invalidRegister 0 0x45 8)) := ⟨by decide, rfl⟩

theorem witness_PopLoadsThenIncrements : 7 < (8 : Byte).toNat ∧
    exec (.pop 8) State.reset = .next (raiseFault State.reset (.invalidRegister 0 0x46 8)) := ⟨by decide, rfl⟩

theorem witness_CmpRecordsOneCode :
    (regRead State.reset 0).toNat = (regRead State.reset 1).toNat ∧
    (regRead State.reset 0).toNat < (regRead State.reset 7).toNat ∧ 7 < (8 : Byte).toNat ∧
    exec (.cmp 8 0) State.reset = .next (raiseFault State.reset (.invalidRegister 0 0xA7 8)) ∧
    exec (.cmp (regByte 7) 8) State.reset = .next (raiseFault State.reset (.invalidRegister 0 0xA7 8)) :=
  ⟨by decide, by decide, by decide, rfl, rfl⟩

theorem witness_JeqJumpsOnlyOnEqual :
    fl (regWrite State.reset 6 1) = 1 ∧ fl State.reset ≠ 1 ∧ 7 < (8 : Byte).toNat ∧
    exec (.jeq 8) (regWrite State.reset 6 1)
      = .next (raiseFault (regWrite State.reset 6 1) (.invalidRegister 0 0x55 8)) :=
  ⟨by decide, by decide, by decide, rfl⟩

theorem witness_JneJumpsOnTwoOrFour :
    fl (regWrite State.reset 6 2) = 2 ∧ fl (regWrite State.reset 6 4) = 4 ∧
    (fl (regWrite State.reset 6 3) ≠ 2 ∧ fl (regWrite State.reset 6 3) ≠ 4) ∧
    exec (.jne 8) (regWrite State.reset 6 2)
      = .next (raiseFault (regWrite State.reset 6 2) (.invalidRegister 0 0x56 8)) :=
  ⟨by decide, by decide, by decide, rfl⟩

theorem witness_JmpGoesToRegister : 7 < (8 : Byte).toNat ∧
    exec (.jmp 8) State.reset = .next (raiseFault State.reset (.invalidRegister 0 0x54 8)) := ⟨by decide, rfl⟩

theorem witness_CallPushesReturnAddress : 7 < (8 : Byte).toNat ∧
    exec (.call 8) State.reset = .next (raiseFault State.reset (.invalidRegister 0 0x50 8)) := ⟨by decide, rfl⟩

theorem witness_PrnEmitsRegister : 7 < (8 : Byte).toNat ∧
    exec (.prn 8) State.reset = .next (raiseFault State.reset (.invalidRegister 0 0x47 8)) := ⟨by decide, rfl⟩

theorem witness_StepRunsDecodedInstruction :
    (machineAt 0xFF [0xA0, 0x00, 0x01]).run = .running ∧
    decode (memRead (machineAt 0xFF [0xA0, 0x00, 0x01]) 0xFF) (memRead (machineAt 0xFF [0xA0, 0x00, 0x01]) 0x00)
      (memRead (machineAt 0xFF [0xA0, 0x00, 0x01]) 0x01) = .ok (.add 0 1) ∧
    State.reset.run = .running ∧
    decode (memRead State.reset 0) (memRead State.reset 1) (memRead State.reset 2)
      = .error (.invalidOpcode (memRead State.reset 0)) := by decide

theorem witness_StepHasThreeOutcomes :
    State.reset.run = .running ∧ (setHalted State.reset).run ≠ .running ∧
    (raiseFault State.reset (.invalidOpcode 0 0)).run ≠ .running := by decide

theorem witness_FaultChangesOnlyTheLatch :
    step State.reset = .next (raiseFault State.reset (.invalidOpcode 0 0)) ∧
    step (machineAt 0 [0x45, 0x08]) = .next (raiseFault (machineAt 0 [0x45, 0x08]) (.invalidRegister 0 0x45 8)) :=
  ⟨rfl, rfl⟩

theorem witness_InvalidOpcodeExactlyWhen :
    step State.reset = .next (raiseFault State.reset (.invalidOpcode 0 0)) := rfl

/-- The clauses of the exact condition: a first operand of 8, a taken JEQ, a taken JNE, a second operand of 8 past a first
operand of 7. -/
theorem witness_InvalidRegisterExactlyWhen :
    afterStep (machineAt 0 [0xA2, 0x08, 0x00]) (fun t => t.run) = some (.faulted (.invalidRegister 0 0xA2 8)) ∧
    afterStep (regWrite (machineAt 0x20 [0x55, 0x08]) 6 1) (fun t => t.run)
      = some (.faulted (.invalidRegister 0x20 0x55 8)) ∧
    afterStep (regWrite (machineAt 0x20 [0x56, 0x10]) 6 2) (fun t => t.run)
      = some (.faulted (.invalidRegister 0x20 0x56 0x10)) ∧
    afterStep (machineAt 0 [0xA0, 0x07, 0x08]) (fun t => t.run) = some (.faulted (.invalidRegister 0 0xA0 8)) := by
  decide

theorem witness_UnsupportedOperationNeverRaised :
    hostReset [] (setHalted State.reset) = .next State.reset ∧
    step State.reset = .next (raiseFault State.reset (.invalidOpcode 0 0)) := ⟨rfl, rfl⟩

theorem witness_FaultPriority :
    (State.reset.run = .running ∧ decodeOpcode (memRead State.reset 0) = none) ∧
    (memRead (machineAt 0 [0xA7, 0x08, 0x08]) 0 ∈ ([0xA0, 0xA2, 0xA7] : List Byte) ∧
      7 < (memRead (machineAt 0 [0xA7, 0x08, 0x08]) 1).toNat) ∧
    (memRead (machineAt 0 [0xA7, 0x07, 0x08]) 0 ∈ ([0xA0, 0xA2, 0xA7] : List Byte) ∧
      (memRead (machineAt 0 [0xA7, 0x07, 0x08]) 1).toNat ≤ 7 ∧
      7 < (memRead (machineAt 0 [0xA7, 0x07, 0x08]) 2).toNat) := by decide

theorem witness_PcAfterEachInstruction :
    State.reset.run = .running ∧
    exec (.ldi 7 9) State.reset = .next (advancePc (regWrite State.reset 7 9) 0x82) ∧
    exec (.ldi 8 9) State.reset = .next (raiseFault State.reset (.invalidRegister 0 0x82 8)) :=
  ⟨rfl, rfl, rfl⟩

theorem witness_AutoAdvanceFromOpcodeBits :
    afterStep (machineAt 0xFF [0x55, 0x00]) (fun t => (t.run, t.pc)) = some (.running, 1) ∧
    autoAdvances (.jeq 0) (machineAt 0xFF [0x55, 0x00]) = true ∧
    decode 0x55 0x00 0x00 = .ok (.jeq 0) := by decide

theorem witness_OnlyListedSlotsWritten :
    exec (.pop 7) State.reset = .next (advancePc (incSp (regWrite State.reset 7 0)) 0x46) := rfl

theorem witness_UnreadSlotsHaveNoInfluence :
    (3 : Fin 8) ∉ slotsRead (.ldi 3 0) State.reset ∧ (6 : Fin 8) ∉ slotsRead (.push 5) State.reset ∧
    (2 : Fin 8) ∉ slotsRead (.jeq 2) State.reset := by decide

theorem witness_DataAccessesOfEachInstruction :
    exec (.call 0) State.reset
      = .next (setPc (memWrite (decSp State.reset) 0xF3 2) 0) ∧
    memRead (setPc (memWrite (decSp State.reset) 0xF3 2) 0) 0xF3 ≠ memRead State.reset 0xF3 ∧
    (0xF5 : Byte) ≠ sp State.reset := ⟨rfl, by decide, by decide⟩

theorem witness_OutputOnlyGrowsByPrn :
    hostReset [0x47, 0x07] State.reset = .next (machineAt 0 [0x47, 0x07]) ∧
    afterStep (machineAt 0 [0x47, 0x07]) (fun t => t.out) = some [0xF4] := ⟨rfl, by decide⟩

theorem witness_BranchTableAfterCmp :
    regRead State.reset 0 = regRead State.reset 1 ∧
    (regRead State.reset 0).toNat < (regRead State.reset 7).toNat ∧
    (fl (regWrite State.reset 6 5) ≠ 1 ∧ fl (regWrite State.reset 6 5) ≠ 2 ∧ fl (regWrite State.reset 6 5) ≠ 4) := by
  decide

theorem witness_CallThenReturn :
    sp (setPc (memWrite (decSp State.reset) 0xF3 2) 0) = sp State.reset - 1 := by decide

/-- P9's PUSH at 06 with SP = 9 (the next opcode byte), then SP = 10 and 11 (the next operand bytes), and CALLs to the stored
byte, the byte before it, and two before it. -/
theorem witness_StoreSeenByNextFetch :
    (let s := regWrite (machineAt 6 [0x45, 0x00]) 7 9
     s.run = .running ∧ memRead s s.pc = 0x45 ∧ memRead s (s.pc + 1) = regByte 0 ∧ sp s - 1 = s.pc + 2) ∧
    (let s := regWrite (machineAt 6 [0x45, 0x00]) 7 10; sp s - 1 = s.pc + 3) ∧
    (let s := regWrite (machineAt 6 [0x45, 0x00]) 7 11; sp s - 1 = s.pc + 4) ∧
    afterStep (machineAt 0x10 [0x50, 0x07]) (fun t => (t.pc, (fetch t).ir)) = some (0xF3, 0x12) ∧
    afterStep (regWrite (machineAt 0x10 [0x50, 0x01]) 1 0xF2) (fun t => (fetch t).opA) = some 0x12 ∧
    afterStep (regWrite (machineAt 0x10 [0x50, 0x01]) 1 0xF1) (fun t => (fetch t).opB) = some 0x12 := by decide

theorem witness_WellFormedNeverFaults :
    Instr.wellFormed (.add 7 0) = true ∧ State.reset.run = .running := by decide

/-- Two histories of writes, one memory. -/
theorem witness_CanonicalMemoryDetermined :
    Memory.wf (memPut (memPut [] 255 1) 0 2) ∧ Memory.wf (memPut (memPut [] 0 2) 255 1) ∧
    memPut (memPut [] 255 1) 0 2 = memPut (memPut [] 0 2) 255 1 := by decide

theorem witness_NoWrapMeansExactAddresses :
    (let s := regWrite (machineAt 252 []) 7 1
     s.pc.toNat ≤ 252 ∧ 1 ≤ (sp s).toNat ∧ (sp s).toNat ≤ 254) ∧
    (let s := regWrite (machineAt 0 []) 7 254
     s.pc.toNat ≤ 252 ∧ 1 ≤ (sp s).toNat ∧ (sp s).toNat ≤ 254) := by decide

theorem witness_ResetGivesTheStatedState :
    ([] : List Byte).length ≤ 256 ∧ (List.replicate 256 (1 : Byte)).length ≤ 256 ∧
    256 < (List.replicate 257 (1 : Byte)).length := by
  rw [List.length_replicate, List.length_replicate]
  decide

theorem witness_LoadedResetMeetsInvariant :
    hostReset [0x01] State.reset = .next (machineAt 0 [0x01]) := rfl

theorem witness_StepKeepsInvariant :
    Inv (machineAt 0 [0x01]) ∧ step (machineAt 0 [0x01]) = .next (setHalted (machineAt 0 [0x01])) :=
  ⟨⟨by decide, trivial⟩, rfl⟩

theorem witness_EveryRunKeepsInvariant :
    hostReset [0x01] State.reset = .next (machineAt 0 [0x01]) ∧
    Host.Core.run core 1 (machineAt 0 [0x01]) = .next (setHalted (machineAt 0 [0x01])) := ⟨rfl, rfl⟩

theorem witness_DecoderAcceptsExactlyThirteen : ¬∃ i, decode 0x00 0x00 0x00 = .ok i := by
  rintro ⟨i, h⟩
  cases h

theorem witness_IgnoredOperandBytes : operandField 0x01 = 0 ∧ operandField 0x45 = 1 := by decide

theorem witness_DecodeOfEncode :
    (encode (.jeq 255) ++ [0x77, 0x88]).take 3 = [0x55, 0xFF, 0x77] := by decide

theorem witness_EncodeOfDecode : decode 0xA7 0x06 0x07 = .ok (.cmp 6 7) := by decide

theorem witness_StoredEncodingRuns : State.reset.run = .running := rfl

theorem witness_PlacedWordRuns : decodeTableWord 8 0x01 = some .hlt := by decide

end Sys2Proof.Tests
end

section
/-! The step of a running machine, and O16: the three outcomes of a step (00_scope.md R10). -/

namespace Sys2Proof.Machine

/-- R82: a running machine with an opcode byte at `pc` runs that instruction, with the two bytes that follow as operands. -/
theorem step_of_opcode {s : State} {m : Mnemonic} (hrun : s.run = .running) (hm : memRead s s.pc = opcodeOf m) :
    step s = exec (instrOf m (memRead s (s.pc + 1)) (memRead s (s.pc + 2))) s := by
  have hdec : decode (fetch s).ir (fetch s).opA (fetch s).opB =
      .ok (instrOf m (memRead s (s.pc + 1)) (memRead s (s.pc + 2))) :=
    decode_eq_ok.mpr ⟨m, hm, rfl⟩
  simp only [step, hrun, hdec]

/-- R82, R171: a running machine with no opcode byte at `pc` raises InvalidOpcode. -/
theorem step_of_invalidOpcode {s : State} (hrun : s.run = .running) (hnone : decodeOpcode (memRead s s.pc) = none) :
    step s = .next (raiseFault s (.invalidOpcode s.pc (memRead s s.pc))) := by
  have hdec : decode (fetch s).ir (fetch s).opA (fetch s).opB = .error (.invalidOpcode (memRead s s.pc)) :=
    decode_eq_error.mpr ⟨hnone, rfl⟩
  simp only [step, hrun, hdec, execInvalidOpcode]

/-- Only the HLT mnemonic gives the HLT instruction, whatever the operand bytes. -/
theorem eq_hlt_of_instrOf {m : Mnemonic} {a b : Byte} (h : instrOf m a b = .hlt) : m = .hlt :=
  (mnemonicOf_instrOf m a b).symm.trans (congrArg mnemonicOf h)

/-- R10, R29: a machine that is not running has no step. -/
theorem quiescent_of_not_running {s : State} (h : s.run ≠ .running) : Quiescent s := by
  intro t ht
  obtain ⟨hrun, -⟩ := step_cases ht
  exact h hrun

/-- R10: a running machine steps to a state that is Running, Halted from an HLT byte, or `s` with a fault in its latch. -/
theorem step_outcomes {s : State} (hrun : s.run = .running) :
    ∃ t, step s = .next t ∧
      (t.run = .running ∨ (t.run = .halted ∧ memRead s s.pc = opcodeOf .hlt) ∨ ∃ cause, t = raiseFault s cause) := by
  cases hdec : decodeOpcode (memRead s s.pc) with
  | none => exact ⟨_, step_of_invalidOpcode hrun hdec, .inr (.inr ⟨_, rfl⟩)⟩
  | some m =>
    have hm := decodeOpcode_eq_some.mp hdec
    rw [step_of_opcode hrun hm]
    rcases exec_cases (instrOf m (memRead s (s.pc + 1)) (memRead s (s.pc + 2))) s with
      ⟨k, -, he⟩ | ⟨-, hhlt, he⟩ | ⟨-, -, t, he, ht⟩
    · exact ⟨_, he, .inr (.inr ⟨_, rfl⟩)⟩
    · exact ⟨_, he, .inr (.inl ⟨rfl, eq_hlt_of_instrOf hhlt ▸ hm⟩)⟩
    · exact ⟨t, he, .inl (ht.trans hrun)⟩

/-- Settles O16: the latch after a step is what the opcode byte and the handler's ending make it, and no step starts with the
latch off Running. -/
theorem stepHasThreeOutcomes : Obligations.StepHasThreeOutcomes := by
  refine ⟨fun s hrun => ?_, fun s => quiescent_of_not_running⟩
  obtain ⟨t, hstep, hran | hhalt | ⟨cause, hfault⟩⟩ := step_outcomes hrun
  · exact ⟨t, hstep, .inl hran⟩
  · exact ⟨t, hstep, .inr (.inl hhalt)⟩
  · exact ⟨t, hstep, .inr (.inr ⟨cause, by rw [hfault, raiseFault_run], hfault⟩)⟩

end Sys2Proof.Machine
end

section
/-! O33 and O39: the register file of R20, and the invariant at reset. -/

namespace Sys2Proof.Machine

/-- Reading any slot but the one written. -/
theorem regRead_regWrite_of_ne {s : State} {k j : Fin Config.numRegs} {v : Byte} (h : j ≠ k) :
    regRead (regWrite s k v) j = regRead s j := by
  rw [regRead_regWrite, if_neg h]

theorem sp_regWrite (s : State) (k : Fin Config.numRegs) (v : Byte) :
    sp (regWrite s k v) = if k = Config.spIndex then v else sp s := by
  simp only [sp, regRead_regWrite, eq_comm]

theorem fl_regWrite (s : State) (k : Fin Config.numRegs) (v : Byte) :
    fl (regWrite s k v) = if k = Config.flIndex then v else fl s := by
  simp only [fl, regRead_regWrite, eq_comm]

/-- Settles O33: SP and FL are reads of slots 7 and 6, so the one law of a read after a write gives all three parts. -/
theorem registerSlotsAreOrdinary : Obligations.RegisterSlotsAreOrdinary :=
  fun s k j v => ⟨regRead_regWrite s k j v, sp_regWrite s k v, fl_regWrite s k v⟩

/-- Settles O39: memory is empty at reset and a running latch claims nothing. -/
theorem resetMeetsInvariant : Obligations.ResetMeetsInvariant :=
  ⟨reset_mem_wf, trivial⟩

end Sys2Proof.Machine
end

section
/-! O24 and O22: the slots, the latch and the program counter that a completed cycle leaves (10_state.md R21, R25). -/

namespace Sys2Proof.Machine

@[simp] theorem namedSlot_regByte (r : Fin Config.numRegs) : namedSlot (regByte r) = [r] := by
  simp [namedSlot]

theorem regRead_decSp_of_ne {s : State} {j : Fin Config.numRegs} (h : j ≠ Config.spIndex) :
    regRead (decSp s) j = regRead s j :=
  regRead_regWrite_of_ne h

theorem regRead_incSp_of_ne {s : State} {j : Fin Config.numRegs} (h : j ≠ Config.spIndex) :
    regRead (incSp s) j = regRead s j :=
  regRead_regWrite_of_ne h

/-- R21, R28: a completed cycle changes only the slots listed as written. -/
theorem completes_sameRegs {i : Instr} {s t : State} (h : Completes i s t) : SameRegsExcept (slotsWritten i) s t := by
  intro j hj
  cases i with
  | hlt => subst h; rfl
  | ret =>
    subst h
    exact regRead_incSp_of_ne (List.ne_of_not_mem_cons hj)
  | push a | call a =>
    obtain ⟨r, rfl, rfl⟩ := h
    exact regRead_decSp_of_ne (List.ne_of_not_mem_cons hj)
  | pop a =>
    obtain ⟨r, rfl, rfl⟩ := h
    rw [slotsWritten, namedSlot_regByte, List.mem_pair, not_or] at hj
    obtain ⟨hsp, hr⟩ := hj
    exact (regRead_incSp_of_ne hsp).trans (regRead_regWrite_of_ne hr)
  | prn a | jmp a =>
    obtain ⟨r, rfl, rfl⟩ := h
    rfl
  | jeq a | jne a => obtain ⟨-, r, rfl, rfl⟩ | ⟨-, rfl⟩ := h <;> rfl
  | ldi a imm =>
    obtain ⟨r, rfl, rfl⟩ := h
    rw [slotsWritten, namedSlot_regByte] at hj
    exact regRead_regWrite_of_ne (List.ne_of_not_mem_cons hj)
  | add a b | mult a b =>
    obtain ⟨r, r', rfl, rfl, rfl⟩ := h
    rw [slotsWritten, namedSlot_regByte] at hj
    exact regRead_regWrite_of_ne (List.ne_of_not_mem_cons hj)
  | cmp a b =>
    obtain ⟨r, r', rfl, rfl, rfl⟩ := h
    exact regRead_regWrite_of_ne (List.ne_of_not_mem_cons hj)

/-- Settles O24: a fault leaves every slot, and a completed cycle all but the listed ones. -/
theorem onlyListedSlotsWritten : Obligations.OnlyListedSlotsWritten := by
  intro i s t h
  obtain ⟨k, -, rfl⟩ | ⟨-, hc⟩ := exec_inversion h
  · exact fun _ _ => rfl
  · exact completes_sameRegs hc

/-- A completed cycle halts (HLT) or leaves the latch. -/
theorem completes_run {i : Instr} {s t : State} (h : Completes i s t) : t.run = .halted ∨ t.run = s.run := by
  cases i with
  | hlt => subst h; exact .inl rfl
  | ret => subst h; exact .inr rfl
  | push a | pop a | prn a | call a | jmp a | ldi a imm =>
    obtain ⟨r, rfl, rfl⟩ := h
    exact .inr rfl
  | jeq a | jne a => obtain ⟨-, r, rfl, rfl⟩ | ⟨-, rfl⟩ := h <;> exact .inr rfl
  | add a b | mult a b | cmp a b =>
    obtain ⟨r, r', rfl, rfl, rfl⟩ := h
    exact .inr rfl

/-- R85: the auto-advance as a number, by the operand count. -/
theorem advancePc_opcodeOf_toNat (s : State) (m : Mnemonic) :
    (advancePc s (opcodeOf m)).pc.toNat = (s.pc.toNat + (operandCount m + 1)) % 256 := by
  rw [advancePc_pc, operandField_opcodeOf]
  simp [BitVec.toNat_add, Nat.add_assoc]

/-- Settles O22: a fault leaves `pc`; a completed cycle of a running machine is no fault, and its form says which of the
table's values it leaves: the auto-advance, a slot's value, or the byte at SP. -/
theorem pcAfterEachInstruction : Obligations.PcAfterEachInstruction := by
  intro i s t hrun h
  obtain ⟨k, -, rfl⟩ | ⟨-, hc⟩ := exec_inversion h
  · exact ⟨fun _ => rfl, fun hno => absurd rfl (hno _)⟩
  refine ⟨fun ⟨cause, hf⟩ => ?_, fun _ => ?_⟩
  · obtain hhalt | hsame := completes_run hc
    · simp [hf] at hhalt
    · simp [hf, hrun] at hsame
  cases i with
  | hlt | ret => subst hc; rfl
  | push a | pop a | prn a | ldi a imm =>
    obtain ⟨r, rfl, rfl⟩ := hc
    exact advancePc_opcodeOf_toNat _ _
  | add a b | mult a b | cmp a b =>
    obtain ⟨j, k, rfl, rfl, rfl⟩ := hc
    exact advancePc_opcodeOf_toNat _ _
  | jmp a =>
    obtain ⟨r, rfl, rfl⟩ := hc
    exact ⟨r, rfl, rfl⟩
  | call a =>
    obtain ⟨r, rfl, rfl⟩ := hc
    exact ⟨r, rfl, regRead_decSp s r⟩
  | jeq a =>
    simp only [← jeqTaken_iff]
    obtain ⟨hj, r, rfl, rfl⟩ | ⟨hj, rfl⟩ := hc
    · rw [if_pos hj]
      exact ⟨r, rfl, rfl⟩
    · rw [if_neg (by simp [hj])]
      exact advancePc_opcodeOf_toNat _ _
  | jne a =>
    simp only [← jneTaken_iff]
    obtain ⟨hj, r, rfl, rfl⟩ | ⟨hj, rfl⟩ := hc
    · rw [if_pos hj]
      exact ⟨r, rfl, rfl⟩
    · rw [if_neg (by simp [hj])]
      exact advancePc_opcodeOf_toNat _ _

end Sys2Proof.Machine
end

section
/-! O25: what an instruction does depends only on the slots it reads (10_state.md R21). -/

namespace Sys2Proof.Machine

/-- An instruction whose accessed registers exist does what its form says. -/
theorem exec_of_completes {i : Instr} {s t : State} (h : Completes i s t) : exec i s = .next t := by
  cases i with
  | hlt | ret => subst h; rfl
  | push a => obtain ⟨r, rfl, rfl⟩ := h; exact execPush_eq s r
  | pop a => obtain ⟨r, rfl, rfl⟩ := h; exact execPop_eq s r
  | prn a => obtain ⟨r, rfl, rfl⟩ := h; exact execPrn_eq s r
  | call a => obtain ⟨r, rfl, rfl⟩ := h; exact execCall_eq s r
  | jmp a => obtain ⟨r, rfl, rfl⟩ := h; exact execJmp_eq s r
  | jeq a =>
    obtain ⟨hj, r, rfl, rfl⟩ | ⟨hj, rfl⟩ := h
    · exact execJeq_taken s r hj
    · exact execJeq_not_taken s hj a
  | jne a =>
    obtain ⟨hj, r, rfl, rfl⟩ | ⟨hj, rfl⟩ := h
    · exact execJne_taken s r hj
    · exact execJne_not_taken s hj a
  | ldi a imm => obtain ⟨r, rfl, rfl⟩ := h; exact execLdi_eq s r imm
  | add a b => obtain ⟨j, k, rfl, rfl, rfl⟩ := h; exact execAdd_eq s j k
  | mult a b => obtain ⟨j, k, rfl, rfl, rfl⟩ := h; exact execMult_eq s j k
  | cmp a b => obtain ⟨j, k, rfl, rfl, rfl⟩ := h; exact execCmp_eq s j k

/-- An instruction that accesses a missing register raises InvalidRegister on the first one. -/
theorem exec_of_missing {i : Instr} {s : State} {k : Byte} (h : missing i s = some k) :
    exec i s = .next (raiseFault s (.invalidRegister s.pc (opcodeOf (mnemonicOf i)) k)) := by
  obtain ⟨k', hk, he⟩ | ⟨hn, -⟩ | ⟨hn, -⟩ := exec_cases i s
  · rw [h, Option.some.injEq] at hk
    rw [he, hk]
  · simp [h] at hn
  · simp [h] at hn

/-- `exec` answers a next state, whatever the instruction and the state. -/
theorem exec_answers (i : Instr) (s : State) : ∃ t, exec i s = .next t := by
  obtain ⟨k, -, he⟩ | ⟨-, -, he⟩ | ⟨-, -, t, he, -⟩ := exec_cases i s
  · exact ⟨_, he⟩
  · exact ⟨_, he⟩
  · exact ⟨t, he⟩

/-- Two runs of one instruction end related when they access the same bytes, report the same `pc`, and a relation that holds of
the two faulting ends can be met at the end of each completed cycle. -/
theorem exec_related {R : State → State → Prop} {i : Instr} {s s' : State} (hpc : s'.pc = s.pc)
    (hacc : accessed i s' = accessed i s) (hraise : ∀ c, R (raiseFault s c) (raiseFault s' c))
    (hdone : ∀ t, Completes i s t → ∃ u, Completes i s' u ∧ R t u) :
    ∃ t u, exec i s = .next t ∧ exec i s' = .next u ∧ R t u := by
  obtain ⟨t, ht⟩ := exec_answers i s
  obtain ⟨k, hk, rfl⟩ | ⟨-, hc⟩ := exec_inversion ht
  · have hk' : missing i s' = some k := by rw [missing, hacc, ← missing, hk]
    exact ⟨_, _, ht, exec_of_missing hk', hpc ▸ hraise _⟩
  · obtain ⟨u, hu, hR⟩ := hdone t hc
    exact ⟨t, u, ht, exec_of_completes hu, hR⟩

/-- Two states that differ at most in slot `k`. -/
structure AgreeBut (k : Fin Config.numRegs) (s s' : State) : Prop where
  regs : ∀ j, j ≠ k → regRead s' j = regRead s j
  pc : s'.pc = s.pc
  mem : s'.mem = s.mem
  run : s'.run = s.run
  out : s'.out = s.out

namespace AgreeBut

variable {k : Fin Config.numRegs} {s s' : State}

theorem of_regWrite (s : State) (k : Fin Config.numRegs) (v : Byte) : AgreeBut k s (regWrite s k v) :=
  ⟨fun _ h => regRead_regWrite_of_ne h, rfl, rfl, rfl, rfl⟩

theorem memRead_eq (h : AgreeBut k s s') (x : Byte) : memRead s' x = memRead s x :=
  memRead_congr h.mem x

theorem after_regWrite (h : AgreeBut k s s') (j : Fin Config.numRegs) {v v' : Byte} (hv : v' = v) :
    AgreeBut k (regWrite s j v) (regWrite s' j v') where
  regs i hi := by simp only [regRead_regWrite, hv, h.regs i hi]
  pc := h.pc
  mem := h.mem
  run := h.run
  out := h.out

theorem after_memWrite (h : AgreeBut k s s') {a a' v v' : Byte} (ha : a' = a) (hv : v' = v) :
    AgreeBut k (memWrite s a v) (memWrite s' a' v') where
  regs := h.regs
  pc := h.pc
  mem := by rw [memWrite_mem, memWrite_mem, h.mem, ha, hv]
  run := h.run
  out := h.out

theorem after_setPc (h : AgreeBut k s s') {v v' : Byte} (hv : v' = v) :
    AgreeBut k (setPc s v) (setPc s' v') :=
  { h with pc := hv }

theorem after_advancePc (h : AgreeBut k s s') (ir : Byte) : AgreeBut k (advancePc s ir) (advancePc s' ir) :=
  h.after_setPc (by rw [h.pc])

theorem after_emit (h : AgreeBut k s s') {v v' : Byte} (hv : v' = v) : AgreeBut k (emit s v) (emit s' v') :=
  { h with out := by rw [emit_out, emit_out, h.out, hv] }

theorem after_setHalted (h : AgreeBut k s s') : AgreeBut k (setHalted s) (setHalted s') :=
  { h with run := rfl }

theorem after_raiseFault (h : AgreeBut k s s') (c : FaultCause) :
    AgreeBut k (raiseFault s c) (raiseFault s' c) :=
  { h with run := rfl }

theorem sp_eq (h : AgreeBut k s s') (hk : k ≠ Config.spIndex) : sp s' = sp s :=
  h.regs _ hk.symm

theorem fl_eq (h : AgreeBut k s s') (hk : k ≠ Config.flIndex) : fl s' = fl s :=
  h.regs _ hk.symm

theorem after_decSp (h : AgreeBut k s s') (hk : k ≠ Config.spIndex) : AgreeBut k (decSp s) (decSp s') :=
  h.after_regWrite _ (by rw [h.sp_eq hk])

theorem after_incSp (h : AgreeBut k s s') (hk : k ≠ Config.spIndex) : AgreeBut k (incSp s) (incSp s') :=
  h.after_regWrite _ (by rw [h.sp_eq hk])

end AgreeBut

/-- Only JEQ and JNE look at a slot, FL, to know which registers they access. -/
theorem accessed_congr {k : Fin Config.numRegs} {i : Instr} {s s' : State} (h : AgreeBut k s s')
    (hk : k ∉ slotsRead i s) : accessed i s' = accessed i s := by
  cases i with
  | jeq a | jne a => simp only [accessed, h.fl_eq (List.ne_of_not_mem_cons hk)]
  | _ => rfl

/-- States that agree but in an unread slot complete alike. -/
theorem completes_congr {k : Fin Config.numRegs} {i : Instr} {s s' t : State} (h : AgreeBut k s s')
    (hk : k ∉ slotsRead i s) (hc : Completes i s t) : ∃ u, Completes i s' u ∧ AgreeBut k t u := by
  cases i with
  | hlt => subst hc; exact ⟨_, rfl, h.after_setHalted⟩
  | ret =>
    subst hc
    have hsp := List.ne_of_not_mem_cons hk
    exact ⟨_, rfl, (h.after_incSp hsp).after_setPc (by rw [h.sp_eq hsp, h.memRead_eq])⟩
  | push a =>
    obtain ⟨r, rfl, rfl⟩ := hc
    simp only [slotsRead, namedSlot_regByte, List.mem_pair, not_or] at hk
    obtain ⟨hsp, hr⟩ := hk
    have hd := h.after_decSp hsp
    exact ⟨_, ⟨r, rfl, rfl⟩, (hd.after_memWrite (by rw [h.sp_eq hsp]) (hd.regs r (Ne.symm hr))).after_advancePc _⟩
  | pop a =>
    obtain ⟨r, rfl, rfl⟩ := hc
    have hsp := List.ne_of_not_mem_cons hk
    exact ⟨_, ⟨r, rfl, rfl⟩, ((h.after_regWrite r (by rw [h.sp_eq hsp, h.memRead_eq])).after_incSp hsp).after_advancePc _⟩
  | prn a =>
    obtain ⟨r, rfl, rfl⟩ := hc
    simp only [slotsRead, namedSlot_regByte, List.mem_singleton] at hk
    exact ⟨_, ⟨r, rfl, rfl⟩, (h.after_emit (h.regs r (Ne.symm hk))).after_advancePc _⟩
  | call a =>
    obtain ⟨r, rfl, rfl⟩ := hc
    simp only [slotsRead, namedSlot_regByte, List.mem_pair, not_or] at hk
    obtain ⟨hsp, hr⟩ := hk
    have hd := h.after_decSp hsp
    exact ⟨_, ⟨r, rfl, rfl⟩, (hd.after_memWrite (by rw [h.sp_eq hsp]) (by rw [h.pc])).after_setPc (hd.regs r (Ne.symm hr))⟩
  | jmp a =>
    obtain ⟨r, rfl, rfl⟩ := hc
    simp only [slotsRead, namedSlot_regByte, List.mem_singleton] at hk
    exact ⟨_, ⟨r, rfl, rfl⟩, h.after_setPc (h.regs r (Ne.symm hk))⟩
  | jeq a | jne a =>
    have hfl := h.fl_eq (List.ne_of_not_mem_cons hk)
    obtain ⟨hj, r, rfl, rfl⟩ | ⟨hj, rfl⟩ := hc
    · simp only [slotsRead, hj, if_true, namedSlot_regByte, List.mem_pair, not_or] at hk
      obtain ⟨-, hr⟩ := hk
      exact ⟨_, .inl ⟨by rw [hfl, hj], r, rfl, rfl⟩, h.after_setPc (h.regs r (Ne.symm hr))⟩
    · exact ⟨_, .inr ⟨by rw [hfl, hj], rfl⟩, h.after_advancePc _⟩
  | ldi a imm =>
    obtain ⟨r, rfl, rfl⟩ := hc
    exact ⟨_, ⟨r, rfl, rfl⟩, (h.after_regWrite r rfl).after_advancePc _⟩
  | add a b | mult a b | cmp a b =>
    obtain ⟨j, j', rfl, rfl, rfl⟩ := hc
    simp only [slotsRead, namedSlot_regByte, List.singleton_append, List.mem_pair, not_or] at hk
    obtain ⟨hj, hj'⟩ := hk
    exact ⟨_, ⟨j, j', rfl, rfl, rfl⟩,
      (h.after_regWrite _ (by rw [h.regs j (Ne.symm hj), h.regs j' (Ne.symm hj')])).after_advancePc _⟩

/-- Settles O25: the two runs access the same bytes and complete alike, so they end in states that differ at most in slot `k`. -/
theorem unreadSlotsHaveNoInfluence : Obligations.UnreadSlotsHaveNoInfluence := by
  intro i s k v hk
  have h := AgreeBut.of_regWrite s k v
  obtain ⟨t, u, ht, hu, hR⟩ := exec_related (R := AgreeBut k) h.pc (accessed_congr h hk) h.after_raiseFault
    fun t hc => completes_congr h hk hc
  exact ⟨t, u, ht, hu, fun j hj => hR.regs j (List.ne_of_not_mem_cons hj), hR.memRead_eq, ⟨hR.out, hR.run⟩, hR.pc⟩

end Sys2Proof.Machine
end

section
/-! O27: the output stream (10_state.md R30). -/

namespace Sys2Proof.Machine

/-- A completed cycle leaves the output, or is PRN's and appends the slot's value. -/
theorem completes_out {i : Instr} {s t : State} (h : Completes i s t) :
    t.out = s.out ∨ ∃ r, i = .prn (regByte r) ∧ t.out = s.out ++ [regRead s r] := by
  cases i with
  | hlt | ret => subst h; exact .inl rfl
  | prn a =>
    obtain ⟨r, rfl, rfl⟩ := h
    exact .inr ⟨r, rfl, rfl⟩
  | push a | pop a | call a | jmp a | ldi a imm =>
    obtain ⟨r, rfl, rfl⟩ := h
    exact .inl rfl
  | jeq a | jne a => obtain ⟨-, r, rfl, rfl⟩ | ⟨-, rfl⟩ := h <;> exact .inl rfl
  | add a b | mult a b | cmp a b =>
    obtain ⟨j, k, rfl, rfl, rfl⟩ := h
    exact .inl rfl

/-- Only the PRN mnemonic gives a PRN instruction, and its operand is the first operand byte. -/
theorem eq_prn_of_instrOf {m : Mnemonic} {a b x : Byte} (h : instrOf m a b = .prn x) : m = .prn ∧ a = x := by
  have hm : m = .prn := (mnemonicOf_instrOf m a b).symm.trans (congrArg mnemonicOf h)
  subst hm
  exact ⟨rfl, Instr.prn.inj h⟩

/-- A step leaves the output, or ran PRN and appended the slot's value. -/
theorem step_out {s t : State} (h : step s = .next t) :
    t.out = s.out ∨ ∃ r, memRead s s.pc = opcodeOf .prn ∧ memRead s (s.pc + 1) = regByte r ∧
      t.out = s.out ++ [regRead s r] := by
  obtain ⟨-, ⟨m, hm, he⟩ | ⟨-, rfl⟩⟩ := step_cases h
  · obtain ⟨k, -, rfl⟩ | ⟨-, hc⟩ := exec_inversion he
    · exact .inl rfl
    · obtain hsame | ⟨r, hi, hout⟩ := completes_out hc
      · exact .inl hsame
      · obtain ⟨rfl, ha⟩ := eq_prn_of_instrOf hi
        exact .inr ⟨r, hm, ha, hout⟩
  · exact .inl rfl

/-- `u` is `t` but for its output. -/
def SameButOut (t u : State) : Prop :=
  u = { t with out := u.out }

/-- No completed cycle reads the output. -/
theorem completes_withOut {i : Instr} {s t : State} (o : List Byte) (h : Completes i s t) :
    ∃ u, Completes i { s with out := o } u ∧ SameButOut t u := by
  cases i with
  | hlt | ret => subst h; exact ⟨_, rfl, rfl⟩
  | push a | pop a | prn a | call a | jmp a | ldi a imm =>
    obtain ⟨r, rfl, rfl⟩ := h
    exact ⟨_, ⟨r, rfl, rfl⟩, rfl⟩
  | jeq a | jne a =>
    obtain ⟨hj, r, rfl, rfl⟩ | ⟨hj, rfl⟩ := h
    · exact ⟨_, .inl ⟨hj, r, rfl, rfl⟩, rfl⟩
    · exact ⟨_, .inr ⟨hj, rfl⟩, rfl⟩
  | add a b | mult a b | cmp a b =>
    obtain ⟨j, k, rfl, rfl, rfl⟩ := h
    exact ⟨_, ⟨j, k, rfl, rfl, rfl⟩, rfl⟩

theorem exec_withOut {i : Instr} {s t : State} (o : List Byte) (h : exec i s = .next t) :
    ∃ u, exec i { s with out := o } = .next u ∧ SameButOut t u := by
  have hacc : accessed i { s with out := o } = accessed i s := by cases i <;> rfl
  obtain ⟨t', u, ht, hu, hR⟩ := exec_related (R := SameButOut) (s := s) (s' := { s with out := o }) rfl hacc
    (fun _ => rfl) fun t hc => completes_withOut o hc
  rw [h, Host.Outcome.next.injEq] at ht
  exact ⟨u, hu, ht ▸ hR⟩

theorem step_withOut {s t : State} (o : List Byte) (h : step s = .next t) :
    ∃ u, step { s with out := o } = .next u ∧ SameButOut t u := by
  obtain ⟨hrun, ⟨m, hm, he⟩ | ⟨hnone, rfl⟩⟩ := step_cases h
  · rw [step_of_opcode (s := { s with out := o }) hrun hm]
    exact exec_withOut o he
  · exact ⟨_, step_of_invalidOpcode (s := { s with out := o }) hrun hnone, rfl⟩

end Sys2Proof.Machine
end

section
/-! O38: reset with an image (10_state.md R33, 70_reset_and_hazards.md R200, R201); and the rest of O27, which speaks of reset. -/

namespace Sys2Proof.Machine

/-- R33's table: the machine right after reset with the program `image`. -/
def loadedReset (image : List Byte) : State :=
  { State.reset with mem := loadImage [] 0 image }

/-- R200: the starting state does not matter. -/
theorem hostReset_of_le {image : List Byte} (h : image.length ≤ 256) (s : State) :
    hostReset image s = .next (loadedReset image) :=
  if_pos h

/-- R201: a longer image is refused. -/
theorem hostReset_of_lt {image : List Byte} (h : 256 < image.length) (s : State) :
    hostReset image s = .refused (.imageTooLong image.length) :=
  if_neg (Nat.not_le.mpr h)

theorem hostReset_eq_next {image : List Byte} {s t : State} (h : hostReset image s = .next t) :
    image.length ≤ 256 ∧ t = loadedReset image := by
  rcases Nat.lt_or_ge 256 image.length with hlt | hle
  · rw [hostReset_of_lt hlt] at h
    cases h
  · rw [hostReset_of_le hle, Host.Outcome.next.injEq] at h
    exact ⟨hle, h.symm⟩

/-- R23: every slot is zero at reset but the stack pointer. -/
theorem regRead_reset : ∀ k : Fin Config.numRegs, regRead State.reset k = if k = 7 then 0xF4 else 0 := by
  decide

/-- R201: a cell holds the image's byte, or 0 past its end. -/
theorem memRead_loadedReset (image : List Byte) (x : Byte) :
    memRead (loadedReset image) x = (image[x.toNat]?).getD 0 := by
  simp [memRead, loadedReset, memGet_loadImage, unlistedByte]

/-- Settles O38: `loadedReset` is the one state, and its parts are R33's. -/
theorem resetGivesTheStatedState : Obligations.ResetGivesTheStatedState := by
  refine ⟨fun image h => ?_, fun image s t h => ?_, fun s => hostReset_of_le (Nat.zero_le _) s, _, rfl, rfl⟩
  · exact ⟨loadedReset image, hostReset_of_le h, regRead_reset, rfl, rfl, rfl, memRead_loadedReset image⟩
  · simp [hostReset_of_lt h]

/-- Settles O27: the output is empty at every reset, a step leaves it or is PRN's, and no step reads it. -/
theorem outputOnlyGrowsByPrn : Obligations.OutputOnlyGrowsByPrn := by
  refine ⟨rfl, fun image s t h => ?_, fun s t => step_out, fun s t o => step_withOut o⟩
  obtain ⟨-, rfl⟩ := hostReset_eq_next h
  rfl

end Sys2Proof.Machine
end

section
/-! O34 and O37: one write of memory, and the addresses under decision D2's side condition (20_memory.md R42, R48). -/

namespace Sys2Proof.Machine

@[simp] theorem memRead_memWrite_same (s : State) (a v : Byte) : memRead (memWrite s a v) a = v := by
  rw [memRead_memWrite, if_pos rfl]

/-- Reading any cell but the one written. -/
theorem memRead_memWrite_of_ne {s : State} {a x v : Byte} (h : x ≠ a) : memRead (memWrite s a v) x = memRead s x := by
  rw [memRead_memWrite, if_neg h]

/-- Settles O34: the law of a read after a write; the other fields are not touched. -/
theorem memWriteSetsOneCell : Obligations.MemWriteSetsOneCell :=
  fun s addr v x => ⟨memRead_memWrite s addr x v, rfl, rfl, rfl, rfl⟩

theorem operandCount_le (m : Mnemonic) : operandCount m ≤ 2 := by
  cases m <;> decide

/-- Settles O37: the largest address a cycle computes from `pc` is `pc + 3`, so no sum reaches 256 and no difference goes
below 0. -/
theorem noWrapMeansExactAddresses : Obligations.NoWrapMeansExactAddresses := by
  intro s ⟨hpc, hpush, hpop⟩
  refine ⟨by bv_omega, by bv_omega, fun m => ?_, ?_, ?_⟩
  · have hcount := operandCount_le m
    rw [advancePc_opcodeOf_toNat]
    omega
  · rw [sp_decSp]
    bv_omega
  · rw [sp_incSp]
    bv_omega

end Sys2Proof.Machine
end

section
/-! O26: which bytes of memory an instruction writes, and which it reads as data (20_memory.md R41). -/

namespace Sys2Proof.Machine

/-- R41, writes: a completed cycle leaves every byte, or is PUSH's or CALL's and leaves every byte but the one below SP. -/
theorem completes_memRead {i : Instr} {s t : State} (h : Completes i s t) :
    SameMemory s t ∨ ((∃ a, i = .push a ∨ i = .call a) ∧ ∀ x, x ≠ sp s - 1 → memRead t x = memRead s x) := by
  cases i with
  | push a =>
    obtain ⟨r, -, rfl⟩ := h
    exact .inr ⟨⟨a, .inl rfl⟩, fun x hx => memRead_memWrite_of_ne hx⟩
  | call a =>
    obtain ⟨r, -, rfl⟩ := h
    exact .inr ⟨⟨a, .inr rfl⟩, fun x hx => memRead_memWrite_of_ne hx⟩
  | hlt | ret => subst h; exact .inl fun _ => rfl
  | pop a | prn a | jmp a | ldi a imm =>
    obtain ⟨r, -, rfl⟩ := h
    exact .inl fun _ => rfl
  | jeq a | jne a => obtain ⟨-, r, -, rfl⟩ | ⟨-, rfl⟩ := h <;> exact .inl fun _ => rfl
  | add a b | mult a b | cmp a b =>
    obtain ⟨j, k, -, -, rfl⟩ := h
    exact .inl fun _ => rfl

/-- Two states that differ at most in the memory cell `x`. -/
structure AgreeButCell (x : Byte) (s s' : State) : Prop where
  regs : s'.regs = s.regs
  pc : s'.pc = s.pc
  run : s'.run = s.run
  out : s'.out = s.out
  cells : ∀ y, y ≠ x → memRead s' y = memRead s y

namespace AgreeButCell

variable {x : Byte} {s s' : State}

theorem of_memWrite (s : State) (x v : Byte) : AgreeButCell x s (memWrite s x v) :=
  ⟨rfl, rfl, rfl, rfl, fun _ h => memRead_memWrite_of_ne h⟩

/-- The same write on both sides, whether it hits `x` or not. -/
theorem after_memWrite (h : AgreeButCell x s s') (a v : Byte) : AgreeButCell x (memWrite s a v) (memWrite s' a v) :=
  { h with cells := fun y hy => by rw [memRead_memWrite, memRead_memWrite, h.cells y hy] }

end AgreeButCell

/-- R41, reads: a write of a cell that is not POP's or RET's data changes nothing else at the end of a completed cycle. -/
theorem completes_memWrite {i : Instr} {s t : State} {x v : Byte} (hx : (∃ a, i = .pop a) ∨ i = .ret → x ≠ sp s)
    (h : Completes i s t) : ∃ u, Completes i (memWrite s x v) u ∧ AgreeButCell x t u := by
  have hcells := (AgreeButCell.of_memWrite s x v).cells
  cases i with
  | ret =>
    subst h
    exact ⟨_, rfl, rfl, hcells _ (hx (.inr rfl)).symm, rfl, rfl, hcells⟩
  | pop a =>
    obtain ⟨r, rfl, rfl⟩ := h
    have hdata : memRead (memWrite s x v) (sp s) = memRead s (sp s) := hcells _ (hx (.inl ⟨_, rfl⟩)).symm
    exact ⟨_, ⟨r, rfl, rfl⟩, congrArg (fun w => (incSp (regWrite s r w)).regs) hdata, rfl, rfl, rfl, hcells⟩
  | push a | call a =>
    obtain ⟨r, rfl, rfl⟩ := h
    have hstored := (AgreeButCell.of_memWrite (decSp s) x v).after_memWrite
    exact ⟨_, ⟨r, rfl, rfl⟩, rfl, rfl, rfl, rfl, (hstored _ _).cells⟩
  | hlt => subst h; exact ⟨_, rfl, rfl, rfl, rfl, rfl, hcells⟩
  | prn a | jmp a | ldi a imm =>
    obtain ⟨r, rfl, rfl⟩ := h
    exact ⟨_, ⟨r, rfl, rfl⟩, rfl, rfl, rfl, rfl, hcells⟩
  | jeq a | jne a =>
    obtain ⟨hj, r, rfl, rfl⟩ | ⟨hj, rfl⟩ := h
    · exact ⟨_, .inl ⟨hj, r, rfl, rfl⟩, rfl, rfl, rfl, rfl, hcells⟩
    · exact ⟨_, .inr ⟨hj, rfl⟩, rfl, rfl, rfl, rfl, hcells⟩
  | add a b | mult a b | cmp a b =>
    obtain ⟨j, k, rfl, rfl, rfl⟩ := h
    exact ⟨_, ⟨j, k, rfl, rfl, rfl⟩, rfl, rfl, rfl, rfl, hcells⟩

/-- Settles O26: a fault writes no byte and a completed cycle only the one below SP; and the runs with and without the write end
in states that differ at most in the written cell. -/
theorem dataAccessesOfEachInstruction : Obligations.DataAccessesOfEachInstruction := by
  refine ⟨fun i s t x h hne => ?_, fun i s x v hx => ?_⟩
  · obtain ⟨k, -, rfl⟩ | ⟨-, hc⟩ := exec_inversion h
    · exact absurd rfl hne
    · obtain hsame | ⟨hi, hsame⟩ := completes_memRead hc
      · exact absurd (hsame x) hne
      · exact ⟨not_imp_comm.mp (hsame x) hne, hi⟩
  · have hacc : accessed i (memWrite s x v) = accessed i s := by cases i <;> rfl
    have hraise (c : FaultCause) : AgreeButCell x (raiseFault s c) (raiseFault (memWrite s x v) c) :=
      { AgreeButCell.of_memWrite s x v with run := rfl }
    obtain ⟨t, u, ht, hu, hR⟩ := exec_related (s := s) (s' := memWrite s x v) rfl hacc hraise
      fun t hc => completes_memWrite hx hc
    exact ⟨t, u, ht, hu, fun k _ => regRead_congr hR.regs k, ⟨hR.out, hR.run⟩, hR.pc, hR.cells⟩

end Sys2Proof.Machine
end

section
/-! O31: a stored byte is what the next fetch reads (20_memory.md R52). -/

namespace Sys2Proof.Machine

/-- R81: the fetch of a state latches a cell's byte in each place where it reads that cell. -/
theorem fetch_of_memRead {t : State} {x v : Byte} (h : memRead t x = v) :
    (t.pc = x → (fetch t).ir = v) ∧ (t.pc + 1 = x → (fetch t).opA = v) ∧ (t.pc + 2 = x → (fetch t).opB = v) := by
  refine ⟨?_, ?_, ?_⟩ <;> (rintro rfl; exact h)

/-- The step of PUSH (R100): the cell below SP holds the slot's value as it is after the decrement, and `pc` passes the
operand. -/
theorem step_push {s : State} (r : Fin Config.numRegs) (hrun : s.run = .running) (hop : memRead s s.pc = opcodeOf .push)
    (ha : memRead s (s.pc + 1) = regByte r) :
    ∃ t, step s = .next t ∧ t.pc = s.pc + 2 ∧
      memRead t (sp s - 1) = if r = Config.spIndex then sp s - 1 else regRead s r := by
  rw [step_of_opcode hrun hop, ha]
  refine ⟨_, execPush_eq s r, ?_, ?_⟩
  · exact add_assoc s.pc 1 1
  · rw [memRead_advancePc, memRead_memWrite_same, regRead_decSp]

/-- The step of CALL (R150): the cell below SP holds the return address. -/
theorem step_call {s : State} (r : Fin Config.numRegs) (hrun : s.run = .running) (hop : memRead s s.pc = opcodeOf .call)
    (ha : memRead s (s.pc + 1) = regByte r) :
    ∃ t, step s = .next t ∧ memRead t (sp s - 1) = s.pc + 2 := by
  rw [step_of_opcode hrun hop, ha]
  exact ⟨_, execCall_eq s r, memRead_memWrite_same _ _ _⟩

/-- Settles O31: the next fetch reads the memory that the step left, at the `pc` that the step left. -/
theorem storeSeenByNextFetch : Obligations.StoreSeenByNextFetch := by
  constructor
  · intro s r hrun hop ha
    obtain ⟨t, hstep, hpc, hcell⟩ := step_push r hrun hop ha
    obtain ⟨hir, hopA, hopB⟩ := fetch_of_memRead hcell
    rw [hpc] at hir hopA hopB
    have h3 : s.pc + 3 = s.pc + 2 + 1 := (add_assoc s.pc 2 1).symm
    have h4 : s.pc + 4 = s.pc + 2 + 2 := (add_assoc s.pc 2 2).symm
    exact ⟨t, hstep, hpc, hcell, fun h => hir h.symm, fun h => hopA (h.trans h3).symm, fun h => hopB (h.trans h4).symm⟩
  · intro s r hrun hop ha
    obtain ⟨t, hstep, hcell⟩ := step_call r hrun hop ha
    exact ⟨t, hstep, hcell, fetch_of_memRead hcell⟩

end Sys2Proof.Machine
end

section
/-! O35: the canonical form of memory is canonical (log entry 5). -/

namespace Sys2Proof.Machine

/-- In a list of rising addresses every entry is the one that is read at its address. -/
theorem memGet_of_mem {m : Memory} (h : m.Pairwise fun p q => p.1 < q.1) {c : Host.Cell} (hc : c ∈ m) :
    memGet m c.1 = c.2 := by
  induction m with
  | nil => cases hc
  | cons d rest ih =>
    obtain ⟨hd, hrest⟩ := List.pairwise_cons.mp h
    rw [memGet_cons]
    obtain rfl | hc := List.mem_cons.mp hc
    · rw [if_pos rfl]
    · rw [if_neg (hd c hc).ne, ih hrest hc]

/-- A byte that no unlisted cell reads as is listed. -/
theorem mem_of_memGet {m : Memory} {a : Nat} (h : memGet m a ≠ unlistedByte) : (a, memGet m a) ∈ m := by
  induction m with
  | nil => exact absurd rfl h
  | cons d rest ih =>
    rw [memGet_cons] at h ⊢
    by_cases hd : d.1 = a
    · rw [if_pos hd, ← hd]
      exact List.mem_cons_self
    · rw [if_neg hd] at h ⊢
      exact List.mem_cons_of_mem _ (ih h)

/-- What a canonical memory lists, every memory that reads alike lists. -/
theorem subset_of_memGet_eq {m n : Memory} (hm : Memory.wf m) (h : ∀ x : Byte, memGet m x.toNat = memGet n x.toNat) :
    m ⊆ n := by
  intro c hc
  obtain ⟨hsorted, hlisted⟩ := hm
  obtain ⟨hlt, hne⟩ := hlisted c hc
  have hread : memGet n c.1 = c.2 := by
    have hx := h (BitVec.ofNat 8 c.1)
    rw [BitVec.toNat_ofNat, Nat.mod_eq_of_lt hlt] at hx
    exact hx.symm.trans (memGet_of_mem hsorted hc)
  have hmem : (c.1, memGet n c.1) ∈ n := mem_of_memGet (hread ▸ hne)
  rwa [hread] at hmem

/-- Settles O35: each of the two lists holds the other's entries, and a list sorted by address is determined by its entries. -/
theorem canonicalMemoryDetermined : Obligations.CanonicalMemoryDetermined := by
  intro m n hm hn h
  have rising : Std.Asymm fun p q : Host.Cell => p.1 < q.1 := ⟨fun _ _ => lt_asymm⟩
  exact List.Subset.antisymm_of_pairwise hm.1 hn.1 (subset_of_memGet_eq hm h) (subset_of_memGet_eq hn fun x => (h x).symm)

end Sys2Proof.Machine
end

section
/-! O47, O48, O43, O44, O45 and O46: decoder and encoder agree on every instruction and every operand byte (30_encoding.md R60 to
R67). -/

namespace Sys2Proof

/-- R61: the top two bits of an opcode byte, as a number. -/
theorem operandField_toNat (ir : Byte) : (operandField ir).toNat = ir.toNat / 64 := by
  simp [operandField, Nat.shiftRight_eq_div_pow]

/-- R61, R66: the top two bits of an instruction's opcode byte are its operand count. -/
theorem operandField_opcodeOf_toNat (m : Mnemonic) : (operandField (opcodeOf m)).toNat = operandCount m := by
  cases m <;> rfl

theorem opcodeOf_injective : Function.Injective opcodeOf := fun m n h =>
  Option.some.inj (by rw [← decodeOpcode_opcodeOf m, h, decodeOpcode_opcodeOf])

/-- R66: each opcode byte decodes to its instruction with the operand bytes it takes. -/
theorem decode_opcodeOf (m : Mnemonic) (a b : Byte) : decode (opcodeOf m) a b = .ok (instrOf m a b) :=
  decode_eq_ok.mpr ⟨m, rfl, rfl⟩

/-- R62: an instruction takes as many of the two operand bytes as its opcode counts. -/
theorem operandBytes_instrOf (m : Mnemonic) (a b : Byte) :
    operandBytes (instrOf m a b) = [a, b].take (operandCount m) := by
  cases m <;> rfl

/-- An instruction is made again from its mnemonic and any two bytes that start with its operand bytes. -/
theorem instrOf_mnemonicOf {i : Instr} {a b : Byte} (h : operandBytes i <+: [a, b]) :
    instrOf (mnemonicOf i) a b = i := by
  cases i with
  | hlt | ret => rfl
  | push x | pop x | prn x | call x | jmp x | jeq x | jne x =>
    obtain ⟨rfl, -⟩ := List.cons_prefix_cons.mp h
    rfl
  | ldi x y | add x y | mult x y | cmp x y =>
    obtain ⟨rfl, hy⟩ := List.cons_prefix_cons.mp h
    obtain ⟨rfl, -⟩ := List.cons_prefix_cons.mp hy
    rfl

theorem encode_instrOf (m : Mnemonic) (a b : Byte) :
    encode (instrOf m a b) = [opcodeOf m, a, b].take (operandCount m + 1) := by
  rw [encode, mnemonicOf_instrOf, operandBytes_instrOf, List.take_succ_cons]

theorem encode_length_le (i : Instr) : (encode i).length ≤ 3 := by
  cases i <;> simp [encode, operandBytes]

/-- The two directions of the round trip in one: three bytes decode to exactly the instruction whose encoding they start with. -/
theorem decode_eq_ok_iff_prefix {ir a b : Byte} {i : Instr} : decode ir a b = .ok i ↔ encode i <+: [ir, a, b] := by
  constructor
  · intro h
    obtain ⟨m, rfl, rfl⟩ := decode_eq_ok.mp h
    exact encode_instrOf m a b ▸ List.take_prefix _ _
  · intro h
    obtain ⟨hop, hoperands⟩ := List.cons_prefix_cons.mp h
    exact decode_eq_ok.mpr ⟨mnemonicOf i, hop.symm, (instrOf_mnemonicOf hoperands).symm⟩

/-- Settles O47: an encoding is at most three bytes, so the first three of a longer list start with it. -/
theorem decodeOfEncode : Obligations.DecodeOfEncode := by
  intro i after ir opA opB h
  have hprefix : encode i <+: (encode i ++ after).take 3 :=
    List.prefix_take_iff.mpr ⟨List.prefix_append _ _, encode_length_le i⟩
  exact decode_eq_ok_iff_prefix.mpr (h ▸ hprefix)

/-- Settles O48: the instruction takes `operandCount` operand bytes, which is what the opcode's top two bits say. -/
theorem encodeOfDecode : Obligations.EncodeOfDecode := by
  intro ir opA opB i h
  obtain ⟨m, rfl, rfl⟩ := decode_eq_ok.mp h
  rw [encode_instrOf, ← operandField_opcodeOf_toNat, operandField_toNat]

/-- Settles O43: every row of the table is one mnemonic's opcode byte. -/
theorem opcodeTableDecodes : Obligations.OpcodeTableDecodes := by
  refine ⟨fun a b => ?_, operandField_opcodeOf_toNat, fun m n h => opcodeOf_injective h⟩
  have row (m : Mnemonic) := decode_opcodeOf m a b
  exact ⟨row .hlt, row .ret, row .push, row .pop, row .prn, row .call, row .jmp, row .jeq, row .jne, row .ldi, row .add,
    row .mult, row .cmp⟩

/-- Settles O44: the bytes of the eight words, read lowest first, decode as R66's table says. -/
theorem instructionWordsDecode : Obligations.InstructionWordsDecode := by
  unfold Obligations.InstructionWordsDecode
  decide

theorem mem_allMnemonics (m : Mnemonic) : m ∈ allMnemonics := by
  cases m <;> decide

/-- R67: the decoder answers an instruction for exactly the opcode bytes of the map. -/
theorem exists_decode_eq_ok_iff {ir a b : Byte} : (∃ i, decode ir a b = .ok i) ↔ ir ∈ allMnemonics.map opcodeOf := by
  constructor
  · rintro ⟨i, h⟩
    obtain ⟨m, rfl, -⟩ := decode_eq_ok.mp h
    exact List.mem_map_of_mem (mem_allMnemonics m)
  · intro h
    obtain ⟨m, -, rfl⟩ := List.mem_map.mp h
    exact ⟨_, decode_opcodeOf m a b⟩

/-- Settles O45: the 13 listed values are the map's bytes, each looked up to its own mnemonic. -/
theorem decoderAcceptsExactlyThirteen : Obligations.DecoderAcceptsExactlyThirteen := by
  have row := decodeOpcode_opcodeOf
  refine ⟨fun ir a b => exists_decode_eq_ok_iff, fun ir a b hno => ?_, ⟨row .hlt, row .ret, row .push, row .pop, row .prn,
    row .call, row .jmp, row .jeq, row .jne, row .ldi, row .add, row .mult, row .cmp⟩, fun ir a b i h => ?_⟩
  · cases hdec : decode ir a b with
    | ok i => exact absurd ⟨i, hdec⟩ hno
    | error e =>
      obtain ⟨-, rfl⟩ := decode_eq_error.mp hdec
      rfl
  · obtain ⟨m, rfl, rfl⟩ := decode_eq_ok.mp h
    rw [decodeOpcode_opcodeOf, mnemonicOf_instrOf]

/-- R62: the decoder looks at no operand byte past the count in the opcode's top two bits. -/
theorem decode_congr {ir a b a' b' : Byte}
    (h : [a, b].take (operandField ir).toNat = [a', b'].take (operandField ir).toNat) :
    decode ir a b = decode ir a' b' := by
  cases hdec : decodeOpcode ir with
  | none => rw [decode_eq_error.mpr ⟨hdec, rfl⟩, decode_eq_error.mpr ⟨hdec, rfl⟩]
  | some m =>
    obtain rfl := decodeOpcode_eq_some.mp hdec
    rw [operandField_opcodeOf_toNat] at h
    have htaken : operandBytes (instrOf m a b) <+: [a', b'] := by
      rw [operandBytes_instrOf, h]
      exact List.take_prefix _ _
    have hsame := instrOf_mnemonicOf htaken
    rw [mnemonicOf_instrOf] at hsame
    rw [decode_opcodeOf, decode_opcodeOf, hsame]

/-- Settles O46: with a count of 0 no operand byte is taken, with a count of 1 only the first. -/
theorem ignoredOperandBytes : Obligations.IgnoredOperandBytes :=
  ⟨fun ir a b a' b' h => decode_congr (by rw [h]; rfl), fun ir a b b' h => decode_congr (by rw [h]; rfl)⟩

end Sys2Proof
end

section
/-! O49: an encoding stored in memory, and its fetch (30_encoding.md R60, 40_execution_loop.md R81, R82). -/

namespace Sys2Proof.Machine

section
variable (s : State) (a : Byte) (bytes : List Byte)

@[simp] theorem storeBytes_pc : (storeBytes s a bytes).pc = s.pc := by
  induction bytes generalizing s a with
  | nil => rfl
  | cons b rest ih => exact ih (memWrite s a b) (a + 1)

@[simp] theorem storeBytes_run : (storeBytes s a bytes).run = s.run := by
  induction bytes generalizing s a with
  | nil => rfl
  | cons b rest ih => exact ih (memWrite s a b) (a + 1)

end

/-- R48: bytes stored from `a` upward, too few to come round to `a` again, are read at their distance from `a` modulo 256, and every
other cell reads as before. -/
theorem memRead_storeBytes (s : State) (a x : Byte) {bytes : List Byte} (h : bytes.length ≤ 256) :
    memRead (storeBytes s a bytes) x = (bytes[(x - a).toNat]?).getD (memRead s x) := by
  induction bytes generalizing s a with
  | nil => rfl
  | cons b rest ih =>
    rw [List.length_cons] at h
    rw [storeBytes, ih (memWrite s a b) (a + 1) (by omega)]
    by_cases hx : x = a
    · subst hx
      have hlast : (x - (x + 1)).toNat = 255 := by bv_omega
      have hnone : rest[255]? = none := List.getElem?_eq_none (by omega)
      rw [hlast, hnone, memRead_memWrite_same, sub_self]
      rfl
    · have hdist : (x - a).toNat = (x - (a + 1)).toNat + 1 := by bv_omega
      rw [hdist, List.getElem?_cons_succ, memRead_memWrite_of_ne hx]

/-- R81: the three latched bytes are those at `pc` and the next two addresses. -/
theorem fetch_eq_map_range (s : State) : [(fetch s).ir, (fetch s).opA, (fetch s).opB] =
    (List.range 3).map fun k => memRead s (s.pc + BitVec.ofNat 8 k) := by
  simp [fetch, List.range_succ]

/-- R81: what is stored from `pc` upward is what a fetch latches first. -/
theorem prefix_fetch_storeBytes (s : State) {bytes : List Byte} (h : bytes.length ≤ 3) :
    bytes <+: [(fetch (storeBytes s s.pc bytes)).ir, (fetch (storeBytes s s.pc bytes)).opA,
      (fetch (storeBytes s s.pc bytes)).opB] := by
  rw [fetch_eq_map_range]
  refine List.prefix_iff_getElem.mpr ⟨by simpa using h, fun k hk => ?_⟩
  have hdist : (s.pc + BitVec.ofNat 8 k - s.pc).toNat = k := by
    rw [add_sub_cancel_left, BitVec.toNat_ofNat]
    omega
  rw [List.getElem_map, List.getElem_range, storeBytes_pc, memRead_storeBytes s _ _ (by omega), hdist,
    List.getElem?_eq_getElem hk, Option.getD_some]

/-- R82: a running machine runs the instruction that the fetched bytes decode to. -/
theorem step_of_decode {s : State} {i : Instr} (hrun : s.run = .running)
    (hdec : decode (fetch s).ir (fetch s).opA (fetch s).opB = .ok i) : step s = exec i s := by
  obtain ⟨m, hm, rfl⟩ := decode_eq_ok.mp hdec
  exact step_of_opcode hrun hm

/-- Settles O49: the fetched bytes start with the encoding, so they decode to the instruction. -/
theorem storedEncodingRuns : Obligations.StoredEncodingRuns := fun i s hrun =>
  step_of_decode ((storeBytes_run s s.pc _).trans hrun)
    (decode_eq_ok_iff_prefix.mpr (prefix_fetch_storeBytes s (encode_length_le i)))

end Sys2Proof.Machine
end

section
/-! O32: an instruction whose register operands all name slots does not fault (30_encoding.md R64, R65). -/

namespace Sys2Proof.Machine

/-- R65: an instruction accesses only its register operands. -/
theorem accessed_subset (i : Instr) (s : State) : accessed i s ⊆ i.registerOperands := by
  cases i with
  | jeq a | jne a =>
    simp only [accessed]
    split
    · exact List.Subset.refl _
    · exact List.nil_subset _
  | _ => exact List.Subset.refl _

/-- A well-formed instruction accesses no missing register. -/
theorem missing_of_wellFormed {i : Instr} (h : i.wellFormed = true) (s : State) : missing i s = none := by
  refine List.find?_eq_none.mpr fun k hk => ?_
  have hslot : k.toNat < 8 := of_decide_eq_true (List.all_eq_true.mp h k (accessed_subset i s hk))
  simpa using Nat.le_of_lt_succ hslot

/-- Settles O32: with no missing register the instruction halts (HLT) or leaves the latch at Running. -/
theorem wellFormedNeverFaults : Obligations.WellFormedNeverFaults := by
  intro i s hwf hrun
  obtain ⟨t, ht⟩ := exec_answers i s
  refine ⟨t, ht, fun cause hf => ?_⟩
  obtain ⟨k, hk, -⟩ | ⟨-, hc⟩ := exec_inversion ht
  · simp [missing_of_wellFormed hwf s] at hk
  · obtain hhalt | hsame := completes_run hc
    · simp [hf] at hhalt
    · simp [hf, hrun] at hsame

end Sys2Proof.Machine
end

section
/-! O14, O15 and O50: what a cycle fetches, and that a step runs exactly what the fetched bytes decode to (40_execution_loop.md R81,
R82, R86). -/

namespace Sys2Proof.Machine

/-- Settles O14: an address is a byte, so its addition is already modulo 256. -/
theorem fetchReadsThreeCells : Obligations.FetchReadsThreeCells := fun s =>
  ⟨rfl, congrArg (memGet s.mem) (BitVec.toNat_add s.pc 1), congrArg (memGet s.mem) (BitVec.toNat_add s.pc 2)⟩

/-- Settles O15: the bytes at `pc` are the ones the step fetches. -/
theorem stepRunsDecodedInstruction : Obligations.StepRunsDecodedInstruction := by
  refine ⟨fun s i hrun hdec => step_of_decode hrun hdec, fun s hrun hdec => ?_⟩
  obtain ⟨hnone, -⟩ := decode_eq_error.mp hdec
  exact step_of_invalidOpcode hrun hnone

/-- A word stands for the instruction that its three lowest bytes decode to. -/
theorem decodeTableWord_eq_some {nbits w : Nat} {i : Instr} : decodeTableWord nbits w = some i ↔
    decode (tableByte nbits w 0) (tableByte nbits w 1) (tableByte nbits w 2) = .ok i := by
  unfold decodeTableWord
  cases decode (tableByte nbits w 0) (tableByte nbits w 1) (tableByte nbits w 2) <;> simp [Except.toOption]

/-- The next fetch latches a placed word's three lowest bytes, wherever `pc` stands. -/
theorem fetch_withFetchWord (s : State) (nbits w : Nat) : fetch (s.withFetchWord nbits w) =
    ⟨tableByte nbits w 0, tableByte nbits w 1, tableByte nbits w 2⟩ :=
  fetch_storeBytes { s with run := .running } _ _ _

@[simp] theorem withFetchWord_run (s : State) (nbits w : Nat) : (s.withFetchWord nbits w).run = .running :=
  storeBytes_run { s with run := .running } _ _

/-- Settles O50: the placed bytes are fetched, and the placing leaves the machine running. -/
theorem placedWordRuns : Obligations.PlacedWordRuns := by
  intro s nbits w i hword
  refine step_of_decode (withFetchWord_run s nbits w) ?_
  rw [fetch_withFetchWord]
  exact decodeTableWord_eq_some.mp hword

end Sys2Proof.Machine
end

section
/-! O23: the auto-advance of a cycle that does not jump (40_execution_loop.md R84, R85). -/

namespace Sys2Proof.Machine

/-- R84, R85: a completed cycle that ends by the auto-advance moved `pc` by its opcode byte's operand count field plus one. -/
theorem completes_pc_of_autoAdvances {i : Instr} {s t : State} (h : Completes i s t) (hadv : autoAdvances i s = true) :
    t.pc = s.pc + operandField (opcodeOf (mnemonicOf i)) + 1 := by
  cases i with
  | hlt | ret | call a | jmp a => cases hadv
  | push a | pop a | prn a | ldi a imm =>
    obtain ⟨r, -, rfl⟩ := h
    rfl
  | jeq a | jne a =>
    obtain ⟨htaken, -⟩ | ⟨-, rfl⟩ := h
    · simp [autoAdvances, htaken] at hadv
    · rfl
  | add a b | mult a b | cmp a b =>
    obtain ⟨j, k, -, -, rfl⟩ := h
    rfl

/-- Settles O23: a cycle that ends Running has raised nothing, so it completed, and the advance is by the top two bits of its
opcode byte, which is the byte fetched. -/
theorem autoAdvanceFromOpcodeBits : Obligations.AutoAdvanceFromOpcodeBits := by
  intro s t i hstep hdec hadv hend
  obtain ⟨hrun, -⟩ := step_cases hstep
  obtain ⟨m, hm, hi⟩ := decode_eq_ok.mp hdec
  have hmi : mnemonicOf i = m := hi ▸ mnemonicOf_instrOf m _ _
  rw [step_of_decode hrun hdec] at hstep
  obtain ⟨k, -, rfl⟩ | ⟨-, hc⟩ := exec_inversion hstep
  · cases hend
  · rw [completes_pc_of_autoAdvances hc hadv, hmi, ← hm]
    simp [BitVec.toNat_add, operandField_toNat]

end Sys2Proof.Machine
end

section
/-! O42: the invariant holds after every reset, every step keeps it, so every run keeps it (60_exceptions.md R171 to R178). -/

namespace Sys2Proof.Machine

/-! ## Memory stays canonical -/

theorem completes_wf {i : Instr} {s t : State} (hwf : Memory.wf s.mem) (h : Completes i s t) : Memory.wf t.mem := by
  cases i with
  | push a | call a =>
    obtain ⟨r, -, rfl⟩ := h
    exact memWrite_wf (s := decSp s) hwf _ _
  | hlt | ret => subst h; exact hwf
  | pop a | prn a | jmp a | ldi a imm =>
    obtain ⟨r, -, rfl⟩ := h
    exact hwf
  | jeq a | jne a => obtain ⟨-, r, -, rfl⟩ | ⟨-, rfl⟩ := h <;> exact hwf
  | add a b | mult a b | cmp a b =>
    obtain ⟨j, k, -, -, rfl⟩ := h
    exact hwf

theorem step_wf {s t : State} (hwf : Memory.wf s.mem) (h : step s = .next t) : Memory.wf t.mem := by
  obtain ⟨-, ⟨m, -, he⟩ | ⟨-, rfl⟩⟩ := step_cases h
  · obtain ⟨k, -, rfl⟩ | ⟨-, hc⟩ := exec_inversion he
    · exact hwf
    · exact completes_wf hwf hc
  · exact hwf

/-! ## The latch stays truthful -/

theorem latchTruthful_of_running {s : State} (h : s.run = .running) : LatchTruthful s := by
  simp [LatchTruthful, h]

theorem latchTruthful_setHalted {s : State} :
    LatchTruthful (setHalted s) ↔ decodeOpcode (memRead s s.pc) = some .hlt := Iff.rfl

theorem latchTruthful_invalidOpcode {s : State} {p ir : Byte} :
    LatchTruthful (raiseFault s (.invalidOpcode p ir)) ↔
      p = s.pc ∧ ir = memRead s s.pc ∧ decodeOpcode ir = none := Iff.rfl

theorem latchTruthful_invalidRegister {s : State} {p ir operand : Byte} :
    LatchTruthful (raiseFault s (.invalidRegister p ir operand)) ↔
      p = s.pc ∧ ir = memRead s s.pc ∧ (decodeOpcode ir).isSome ∧ Config.numRegs ≤ operand.toNat ∧
        (operand = memRead s (s.pc + 1) ∨ operand = memRead s (s.pc + 2)) := Iff.rfl

theorem registerOperands_subset (i : Instr) : i.registerOperands ⊆ operandBytes i := by
  cases i with
  | ldi a imm => exact List.cons_subset_cons a (List.nil_subset _)
  | _ => exact List.Subset.refl _

/-- R64, R172: the register an instruction misses is named by one of its two operand bytes, and that byte is above 7. -/
theorem missing_instrOf {m : Mnemonic} {a b k : Byte} {s : State} (h : missing (instrOf m a b) s = some k) :
    Config.numRegs ≤ k.toNat ∧ (k = a ∨ k = b) := by
  have habove : 7 < k.toNat := by simpa using List.find?_some h
  have hoperand : k ∈ operandBytes (instrOf m a b) :=
    registerOperands_subset _ (accessed_subset _ s (List.mem_of_find?_eq_some h))
  rw [operandBytes_instrOf] at hoperand
  exact ⟨habove, by simpa using List.mem_of_mem_take hoperand⟩

theorem step_latchTruthful {s t : State} (h : step s = .next t) : LatchTruthful t := by
  obtain ⟨hrun, ⟨m, hm, he⟩ | ⟨hnone, rfl⟩⟩ := step_cases h
  · obtain ⟨k, hk, he'⟩ | ⟨-, hhlt, he'⟩ | ⟨-, -, u, he', hsame⟩ :=
      exec_cases (instrOf m (memRead s (s.pc + 1)) (memRead s (s.pc + 2))) s <;>
      obtain rfl := Host.Outcome.next.inj (he.symm.trans he')
    · rw [mnemonicOf_instrOf, latchTruthful_invalidRegister, decodeOpcode_opcodeOf]
      exact ⟨rfl, hm.symm, rfl, missing_instrOf hk⟩
    · rw [latchTruthful_setHalted, hm, eq_hlt_of_instrOf hhlt, decodeOpcode_opcodeOf]
    · exact latchTruthful_of_running (hsame.trans hrun)
  · exact latchTruthful_invalidOpcode.mpr ⟨rfl, rfl, hnone⟩

/-! ## The invariant along a run -/

theorem loadedReset_inv {image : List Byte} (h : image.length ≤ 256) : Inv (loadedReset image) :=
  ⟨loadImage_wf reset_mem_wf image (by simpa using h), latchTruthful_of_running rfl⟩

theorem step_inv {s t : State} (hinv : Inv s) (h : step s = .next t) : Inv t := by
  obtain ⟨hwf, -⟩ := hinv
  exact ⟨step_wf hwf h, step_latchTruthful h⟩

/-- What every step of a machine keeps, every run of it keeps. -/
theorem run_induction (M : Host.Core) {P : M.State → Prop} (hstep : ∀ s t, P s → M.step s = .next t → P t)
    {k : Nat} {s t : M.State} (hs : P s) (h : Host.Core.run M k s = .next t) : P t := by
  induction k generalizing s with
  | zero => exact Host.Outcome.next.inj h ▸ hs
  | succ k ih =>
    obtain ⟨u, hu, hrest⟩ := run_succ M h
    exact ih (hstep s u hs hu) hrest

/-- Settles O42: the reset side and the step side of the invariant, put together along the run. -/
theorem everyRunKeepsInvariant : Obligations.EveryRunKeepsInvariant := by
  intro image before s t k hreset hrun
  obtain ⟨hlen, rfl⟩ := hostReset_eq_next hreset
  exact run_induction core (fun _ _ => step_inv) (loadedReset_inv hlen) hrun

end Sys2Proof.Machine
end

section
/-! O4, O5 and O29: PUSH, POP, and the one after the other (41_stack.md R100 to R103). -/

namespace Sys2Proof.Machine

/-- R173: an access to a missing register changes nothing but the latch. -/
theorem faults_of_missing {i : Instr} {s : State} {k : Byte} (h : missing i s = some k) :
    Faults i s (.invalidRegister s.pc (opcodeOf (mnemonicOf i)) k) :=
  ⟨_, exec_of_missing h, rfl, rfl, rfl, fun _ _ => rfl, fun _ => rfl⟩

/-- R172: an instruction whose first operand is accessed and names no register misses that register. -/
theorem missing_of_accessed {i : Instr} {s : State} {a : Byte} {rest : List Byte} (hacc : accessed i s = a :: rest)
    (h : 7 < a.toNat) : missing i s = some a := by
  rw [missing, hacc]
  exact List.find?_cons_of_pos (decide_eq_true h)

@[simp] theorem sp_memWrite (s : State) (a v : Byte) : sp (memWrite s a v) = sp s := rfl

@[simp] theorem sp_advancePc (s : State) (ir : Byte) : sp (advancePc s ir) = sp s := rfl

/-- R100: the state that PUSH leaves. -/
theorem exec_push (s : State) (r : Fin Config.numRegs) : ∃ t, exec (.push (regByte r)) s = .next t ∧
    sp t = sp s - 1 ∧ SameRegsExcept [Config.spIndex] s t ∧
    memRead t (sp t) = (if r = Config.spIndex then sp t else regRead s r) ∧
    (∀ x, x ≠ sp t → memRead t x = memRead s x) ∧ t.pc.toNat = (s.pc.toNat + 2) % 256 ∧ SameOutRun s t := by
  have hc : Completes (.push (regByte r)) s _ := ⟨r, rfl, rfl⟩
  refine ⟨_, exec_of_completes hc, ?_⟩
  rw [sp_advancePc, sp_memWrite, sp_decSp]
  refine ⟨rfl, completes_sameRegs hc, ?_, fun x hx => memRead_memWrite_of_ne hx, advancePc_opcodeOf_toNat _ .push, rfl, rfl⟩
  rw [memRead_advancePc, memRead_memWrite_same, regRead_decSp]

/-- Settles O4: the rule of PUSH, with the decrement as a number modulo 256. -/
theorem pushStoresAfterDecrement : Obligations.PushStoresAfterDecrement := by
  refine ⟨fun a b => ⟨decode_opcodeOf .push a b, rfl⟩, fun s a => ?_, fun s a h =>
    faults_of_missing (missing_of_accessed rfl h)⟩
  obtain ⟨t, ht, hsp, hrest⟩ := exec_push s a
  exact ⟨t, ht, by rw [hsp]; bv_omega, hrest⟩

/-- R101: the state that POP leaves. -/
theorem exec_pop (s : State) (r : Fin Config.numRegs) : ∃ t, exec (.pop (regByte r)) s = .next t ∧
    (r ≠ Config.spIndex → regRead t r = memRead s (sp s) ∧ sp t = sp s + 1) ∧
    (r = Config.spIndex → sp t = memRead s (sp s) + 1) ∧
    SameRegsExcept [r, Config.spIndex] s t ∧ SameMemory s t ∧ t.pc.toNat = (s.pc.toNat + 2) % 256 ∧
    SameOutRun s t := by
  have hc : Completes (.pop (regByte r)) s _ := ⟨r, rfl, rfl⟩
  refine ⟨_, exec_of_completes hc, fun hr => ⟨?_, ?_⟩, fun hr => ?_, fun k hk => completes_sameRegs hc k ?_,
    fun _ => rfl, advancePc_opcodeOf_toNat _ .pop, rfl, rfl⟩
  · exact (regRead_incSp_of_ne hr).trans (regRead_regWrite_same s r _)
  · rw [sp_advancePc, sp_incSp, sp_regWrite, if_neg hr]
  · rw [sp_advancePc, sp_incSp, sp_regWrite, if_pos hr]
  · rw [slotsWritten, namedSlot_regByte]
    simpa [and_comm] using hk

/-- Settles O5: the rule of POP, with the increment as a number modulo 256. -/
theorem popLoadsThenIncrements : Obligations.PopLoadsThenIncrements := by
  refine ⟨fun a b => ⟨decode_opcodeOf .pop a b, rfl⟩, fun s a => ?_, fun s a h =>
    faults_of_missing (missing_of_accessed rfl h)⟩
  obtain ⟨t, ht, hother, hsp, hrest⟩ := exec_pop s a
  refine ⟨t, ht, fun ha => ?_, fun ha => ?_, hrest⟩
  · obtain ⟨hloaded, hinc⟩ := hother ha
    exact ⟨hloaded, by rw [hinc]; exact BitVec.toNat_add _ 1⟩
  · rw [hsp ha]
    exact BitVec.toNat_add _ 1

/-- Settles O29: POP loads the cell that PUSH stored, for the PUSH left SP at that cell. -/
theorem pushThenPop : Obligations.PushThenPop := by
  intro s r q
  obtain ⟨t, ht, hdec, -, hcell, -⟩ := exec_push s r
  obtain ⟨u, hu, hother, hsp, -⟩ := exec_pop t q
  rw [hcell, hdec] at hother hsp
  refine ⟨t, u, ht, hu, fun hq => ?_, hsp⟩
  obtain ⟨hloaded, hinc⟩ := hother hq
  exact ⟨hloaded, hinc.trans (sub_add_cancel _ 1)⟩

end Sys2Proof.Machine
end

section
/-! O36, O1, O2 and O3: the ALU's two results, and LDI, ADD and MULT (42_alu.md R110 to R113, R119, R120). -/

namespace Sys2Proof.Machine

@[simp] theorem alu_add (u v : Byte) : alu .add u v = u + v := rfl

@[simp] theorem alu_mul (u v : Byte) : alu .mul u v = u * v := rfl

/-- Settles O36: the ALU's results are the ring operations of the bytes, whose laws these are; adding 255 subtracts 1 because
255 and 1 add up to 0. -/
theorem aluLaws : Obligations.AluLaws := by
  intro u v w
  simp only [alu_add, alu_mul]
  have hinv : (255 + 1 : Byte) = 0 := rfl
  exact ⟨BitVec.toNat_add u v, BitVec.toNat_mul u v, add_comm u v, mul_comm u v, add_assoc u v w, mul_assoc u v w,
    add_zero u, mul_one u, mul_zero u, BitVec.toNat_add u 255, by rw [add_assoc, hinv, add_zero]⟩

/-- R84, R85: an instruction that completes by writing one slot changes that slot and `pc` only. -/
theorem exec_of_completes_regWrite {i : Instr} {s : State} {r : Fin Config.numRegs} {v : Byte} {m : Mnemonic}
    (hc : Completes i s (advancePc (regWrite s r v) (opcodeOf m))) :
    ∃ t, exec i s = .next t ∧ regRead t r = v ∧ SameRegsExcept [r] s t ∧
      t.pc.toNat = (s.pc.toNat + (operandCount m + 1)) % 256 ∧ SameMemory s t ∧ SameOutRun s t :=
  ⟨_, exec_of_completes hc, regRead_regWrite_same s r v,
    fun _ hk => regRead_regWrite_of_ne (List.ne_of_not_mem_cons hk), advancePc_opcodeOf_toNat _ m, fun _ => rfl, rfl, rfl⟩

/-- R177: an instruction of two register operands misses the second when the first names a slot and the second names none. -/
theorem missing_of_accessed_second {i : Instr} {s : State} {r : Fin Config.numRegs} {b : Byte}
    (hacc : accessed i s = [regByte r, b]) (h : 7 < b.toNat) : missing i s = some b := by
  have hr : ¬ 7 < (regByte r).toNat := (regByte_le r).not_gt
  simp only [missing, hacc, List.find?_cons, hr, h, decide_false, decide_true]

/-- Settles O1: LDI writes its immediate to the slot it names, and its only register operand is the first. -/
theorem ldiLoadsImmediate : Obligations.LdiLoadsImmediate := by
  refine ⟨fun a imm => ⟨decode_opcodeOf .ldi a imm, rfl⟩, fun s a imm => ?_,
    fun s a imm h => faults_of_missing (missing_of_accessed rfl h)⟩
  have hc : Completes (.ldi (regByte a) imm) s _ := ⟨a, rfl, rfl⟩
  exact exec_of_completes_regWrite hc

/-- Settles O2: ADD writes the ALU's sum, a number modulo 256, to its first slot. -/
theorem addWrapsModulo256 : Obligations.AddWrapsModulo256 := by
  refine ⟨fun a b => ⟨decode_opcodeOf .add a b, rfl⟩, fun s a b => ?_,
    fun s a b h => faults_of_missing (missing_of_accessed rfl h),
    fun s a b h => faults_of_missing (missing_of_accessed_second rfl h)⟩
  have hc : Completes (.add (regByte a) (regByte b)) s _ := ⟨a, b, rfl, rfl, rfl⟩
  obtain ⟨t, ht, hsum, hframe⟩ := exec_of_completes_regWrite hc
  exact ⟨t, ht, by rw [hsum, alu_add, BitVec.toNat_add], hframe⟩

/-- Settles O3: MULT writes the ALU's product, a number modulo 256, to its first slot. -/
theorem multKeepsLowByte : Obligations.MultKeepsLowByte := by
  refine ⟨fun a b => ⟨decode_opcodeOf .mult a b, rfl⟩, fun s a b => ?_,
    fun s a b h => faults_of_missing (missing_of_accessed rfl h),
    fun s a b h => faults_of_missing (missing_of_accessed_second rfl h)⟩
  have hc : Completes (.mult (regByte a) (regByte b)) s _ := ⟨a, b, rfl, rfl, rfl⟩
  obtain ⟨t, ht, hproduct, hframe⟩ := exec_of_completes_regWrite hc
  exact ⟨t, ht, by rw [hproduct, alu_mul, BitVec.toNat_mul], hframe⟩

end Sys2Proof.Machine
end

section
/-! O6, O7, O8, O9 and O28: JMP, the two conditional jumps, CMP, and a conditional jump after CMP (43_compare_branch.md R130 to
R134). -/

namespace Sys2Proof.Machine

/-! ## The two ends of a jump instruction -/

/-- The cycle of `i` in `s` writes `target` to `pc` and changes nothing else. -/
def JumpsTo (i : Instr) (s : State) (target : Byte) : Prop :=
  ∃ t, exec i s = .next t ∧ t.pc = target ∧ OnlyPcChanged s t

/-- The cycle of `i` in `s` only passes over the two bytes of `i`. -/
def FallsThrough (i : Instr) (s : State) : Prop :=
  ∃ t, exec i s = .next t ∧ t.pc.toNat = (s.pc.toNat + 2) % 256 ∧ OnlyPcChanged s t

theorem onlyPcChanged_setPc (s : State) (v : Byte) : OnlyPcChanged s (setPc s v) :=
  ⟨fun _ _ => rfl, fun _ => rfl, rfl, rfl⟩

theorem jumpsTo_of_completes {i : Instr} {s : State} {v : Byte} (hc : Completes i s (setPc s v)) : JumpsTo i s v :=
  ⟨_, exec_of_completes hc, rfl, onlyPcChanged_setPc s v⟩

/-- R85: the auto-advance of a one-operand instruction is the fall-through. -/
theorem fallsThrough_of_completes {i : Instr} {s : State} {m : Mnemonic} (hm : operandCount m = 1)
    (hc : Completes i s (advancePc s (opcodeOf m))) : FallsThrough i s :=
  ⟨_, exec_of_completes hc, by rw [advancePc_opcodeOf_toNat, hm], onlyPcChanged_setPc s _⟩

/-! ## JMP, JEQ and JNE, by the value of FL -/

section
variable {s : State} (r : Fin Config.numRegs) (a : Byte)

theorem jmp_jumpsTo : JumpsTo (.jmp (regByte r)) s (regRead s r) :=
  jumpsTo_of_completes ⟨r, rfl, rfl⟩

theorem jeq_jumpsTo (h : fl s = 1) : JumpsTo (.jeq (regByte r)) s (regRead s r) :=
  jumpsTo_of_completes (.inl ⟨jeqTaken_iff.mpr h, r, rfl, rfl⟩)

theorem jne_jumpsTo (h : fl s = 2 ∨ fl s = 4) : JumpsTo (.jne (regByte r)) s (regRead s r) :=
  jumpsTo_of_completes (.inl ⟨jneTaken_iff.mpr h, r, rfl, rfl⟩)

theorem jeq_fallsThrough (h : fl s ≠ 1) : FallsThrough (.jeq a) s :=
  fallsThrough_of_completes rfl (.inr ⟨Bool.eq_false_iff.mpr (mt jeqTaken_iff.mp h), rfl⟩)

theorem jne_fallsThrough (h : ¬(fl s = 2 ∨ fl s = 4)) : FallsThrough (.jne a) s :=
  fallsThrough_of_completes rfl (.inr ⟨Bool.eq_false_iff.mpr (mt jneTaken_iff.mp h), rfl⟩)

/-- R65: a taken JEQ accesses its operand. -/
theorem accessed_jeq_of_taken (h : fl s = 1) : accessed (.jeq a) s = [a] :=
  if_pos (jeqTaken_iff.mpr h)

/-- R65: a taken JNE accesses its operand. -/
theorem accessed_jne_of_taken (h : fl s = 2 ∨ fl s = 4) : accessed (.jne a) s = [a] :=
  if_pos (jneTaken_iff.mpr h)

end

/-- Settles O9: JMP completes by a write of `pc` alone, and its operand is always accessed. -/
theorem jmpGoesToRegister : Obligations.JmpGoesToRegister :=
  ⟨fun a b => ⟨decode_opcodeOf .jmp a b, rfl⟩, fun _ r => jmp_jumpsTo r,
    fun _ _ h => faults_of_missing (missing_of_accessed rfl h)⟩

/-- Settles O7: by FL, JEQ jumps or falls through, and only a taken JEQ accesses its operand. -/
theorem jeqJumpsOnlyOnEqual : Obligations.JeqJumpsOnlyOnEqual :=
  ⟨fun a b => ⟨decode_opcodeOf .jeq a b, rfl⟩, fun _ r hfl => jeq_jumpsTo r hfl,
    fun _ a hfl => jeq_fallsThrough a hfl,
    fun _ a hfl h => faults_of_missing (missing_of_accessed (accessed_jeq_of_taken a hfl) h)⟩

/-- Settles O8: by FL, JNE jumps or falls through, and only a taken JNE accesses its operand. -/
theorem jneJumpsOnTwoOrFour : Obligations.JneJumpsOnTwoOrFour :=
  ⟨fun a b => ⟨decode_opcodeOf .jne a b, rfl⟩, fun _ r hfl => jne_jumpsTo r hfl,
    fun _ a h2 h4 => jne_fallsThrough a (not_or.mpr ⟨h2, h4⟩),
    fun _ a hfl h => faults_of_missing (missing_of_accessed (accessed_jne_of_taken a hfl) h)⟩

/-! ## CMP -/

section
variable {u v : Byte}

theorem compareCode_of_eq (h : u = v) : compareCode u v = 1 :=
  if_pos h

theorem compareCode_of_gt (h : v.toNat < u.toNat) : compareCode u v = 2 := by
  have hne : u ≠ v := ne_of_apply_ne BitVec.toNat h.ne'
  rw [compareCode, if_neg hne, if_pos h, flGt]

theorem compareCode_of_lt (h : u.toNat < v.toNat) : compareCode u v = 4 := by
  have hne : u ≠ v := ne_of_apply_ne BitVec.toNat h.ne
  rw [compareCode, if_neg hne, if_neg h.not_gt, flLt]

end

/-- R134: of the code CMP records, exactly one of the two conditions holds. -/
theorem jeqTaken_compareCode_iff (u v : Byte) :
    jeqTaken (compareCode u v) = true ↔ jneTaken (compareCode u v) = false := by
  obtain hlt | heq | hgt := lt_trichotomy u.toNat v.toNat
  · rw [compareCode_of_lt hlt]; decide
  · rw [compareCode_of_eq (BitVec.eq_of_toNat_eq heq)]; decide
  · rw [compareCode_of_gt hgt]; decide

/-- R130: CMP of two slots records their code in FL and otherwise only advances `pc`. -/
theorem exec_cmp (s : State) (a b : Fin Config.numRegs) : ∃ t, exec (.cmp (regByte a) (regByte b)) s = .next t ∧
    fl t = compareCode (regRead s a) (regRead s b) ∧ SameRegsExcept [Config.flIndex] s t ∧
    t.pc.toNat = (s.pc.toNat + 3) % 256 ∧ SameMemory s t ∧ SameOutRun s t := by
  have hc : Completes (.cmp (regByte a) (regByte b)) s _ := ⟨a, b, rfl, rfl, rfl⟩
  exact exec_of_completes_regWrite hc

/-- Settles O6: FL holds the code of the two old values, and the code follows their order. -/
theorem cmpRecordsOneCode : Obligations.CmpRecordsOneCode := by
  refine ⟨fun a b => ⟨decode_opcodeOf .cmp a b, rfl⟩, fun s a b => ?_,
    fun s a b h => faults_of_missing (missing_of_accessed rfl h),
    fun s a b h => faults_of_missing (missing_of_accessed_second rfl h)⟩
  obtain ⟨t, ht, hfl, hframe⟩ := exec_cmp s a b
  refine ⟨t, ht, ?_⟩
  rw [hfl]
  exact ⟨fun h => compareCode_of_eq (BitVec.eq_of_toNat_eq h), compareCode_of_gt, compareCode_of_lt,
    jeqTaken_compareCode_iff _ _, hframe⟩

/-! ## A conditional jump after CMP -/

/-- R134, the row of equal values: JEQ jumps and JNE falls through. -/
theorem branches_of_fl_eq_one {t : State} (r : Fin Config.numRegs) (h : fl t = 1) :
    JumpsTo (.jeq (regByte r)) t (regRead t r) ∧ FallsThrough (.jne (regByte r)) t :=
  ⟨jeq_jumpsTo r h, jne_fallsThrough _ (by rw [h]; decide)⟩

/-- R134, the rows of unequal values: JEQ falls through and JNE jumps. -/
theorem branches_of_fl_eq_two_or_four {t : State} (r : Fin Config.numRegs) (h : fl t = 2 ∨ fl t = 4) :
    FallsThrough (.jeq (regByte r)) t ∧ JumpsTo (.jne (regByte r)) t (regRead t r) := by
  have hne : fl t ≠ 1 := by obtain h | h := h <;> rw [h] <;> decide
  exact ⟨jeq_fallsThrough _ hne, jne_jumpsTo r h⟩

/-- Settles O28: the code CMP leaves in FL selects the row of the branch table. -/
theorem branchTableAfterCmp : Obligations.BranchTableAfterCmp := by
  refine ⟨fun s a b r => ?_, fun _ a h1 h2 h4 => ⟨jeq_fallsThrough a h1, jne_fallsThrough a (not_or.mpr ⟨h2, h4⟩)⟩⟩
  obtain ⟨t, ht, hfl, -⟩ := exec_cmp s a b
  refine ⟨t, ht, fun heq => ?_, fun hgt => ?_, fun hlt => ?_⟩
  · have h1 := hfl.trans (compareCode_of_eq heq)
    exact ⟨h1, branches_of_fl_eq_one r h1⟩
  · have h2 := hfl.trans (compareCode_of_gt hgt)
    exact ⟨h2, branches_of_fl_eq_two_or_four r (.inl h2)⟩
  · have h4 := hfl.trans (compareCode_of_lt hlt)
    exact ⟨h4, branches_of_fl_eq_two_or_four r (.inr h4)⟩

end Sys2Proof.Machine
end

section
/-! O10, O30 and O11: CALL, RET, and the return to the byte after the CALL (44_call_return.md R150 to R152). -/

namespace Sys2Proof.Machine

@[simp] theorem sp_setPc (s : State) (v : Byte) : sp (setPc s v) = sp s := rfl

/-- R150: the state that CALL leaves. -/
theorem exec_call (s : State) (r : Fin Config.numRegs) : ∃ t, exec (.call (regByte r)) s = .next t ∧
    sp t = sp s - 1 ∧ memRead t (sp t) = s.pc + 2 ∧ SameRegsExcept [Config.spIndex] s t ∧
    (∀ x, x ≠ sp t → memRead t x = memRead s x) ∧ t.pc = (if r = Config.spIndex then sp t else regRead s r) ∧
    SameOutRun s t := by
  have hc : Completes (.call (regByte r)) s _ := ⟨r, rfl, rfl⟩
  refine ⟨_, exec_of_completes hc, ?_⟩
  rw [sp_setPc, sp_memWrite, sp_decSp]
  exact ⟨rfl, memRead_memWrite_same _ _ _, completes_sameRegs hc, fun x hx => memRead_memWrite_of_ne hx,
    regRead_decSp s r, rfl, rfl⟩

/-- R151: the state that RET leaves. -/
theorem exec_ret (s : State) : ∃ t, exec .ret s = .next t ∧ t.pc = memRead s (sp s) ∧ sp t = sp s + 1 ∧
    SameRegsExcept [Config.spIndex] s t ∧ SameMemory s t ∧ SameOutRun s t := by
  have hc : Completes .ret s _ := rfl
  exact ⟨_, exec_of_completes hc, rfl, sp_incSp s, completes_sameRegs hc, fun _ => rfl, rfl, rfl⟩

/-- Settles O10: the rule of CALL, with the decrement and the return address as numbers modulo 256. -/
theorem callPushesReturnAddress : Obligations.CallPushesReturnAddress := by
  refine ⟨fun a b => ⟨decode_opcodeOf .call a b, rfl⟩, fun s a => ?_, fun s a h =>
    faults_of_missing (missing_of_accessed rfl h)⟩
  obtain ⟨t, ht, hsp, hcell, hregs, hrest⟩ := exec_call s a
  exact ⟨t, ht, by rw [hsp]; bv_omega, hregs, by rw [hcell]; exact BitVec.toNat_add _ 2, hrest⟩

/-- Settles O11: the rule of RET, with the increment as a number modulo 256. -/
theorem retPopsIntoPc : Obligations.RetPopsIntoPc := by
  refine ⟨fun a b => ⟨decode_opcodeOf .ret a b, rfl⟩, fun s => ?_⟩
  obtain ⟨t, ht, hpc, hsp, hframe⟩ := exec_ret s
  exact ⟨t, ht, hpc, by rw [hsp]; exact BitVec.toNat_add _ 1, hframe⟩

/-- Settles O30: RET loads the cell at SP, which still holds the return address that CALL stored there, and its increment undoes
CALL's decrement. -/
theorem callThenReturn : Obligations.CallThenReturn := by
  intro s r
  obtain ⟨t, ht, hdec, hcell, -⟩ := exec_call s r
  rw [hdec] at hcell
  refine ⟨t, ht, fun u hsp hkept => ?_⟩
  obtain ⟨w, hw, hpc, hinc, -⟩ := exec_ret u
  have hreturn : w.pc = s.pc + 2 := by rw [hpc, hsp, hkept, hcell]
  refine ⟨w, hw, by rw [hreturn]; exact BitVec.toNat_add _ 2, ?_⟩
  rw [hinc, hsp, sub_add_cancel]

end Sys2Proof.Machine
end

section
/-! O41, O12 and O13: every step keeps the invariant, PRN, and HLT (45_output_halt.md R160, R161). -/

namespace Sys2Proof.Machine

/-- Settles O41: memory stays canonical under every completed cycle, and the latch is truthful after any step, because a step
starts from Running and leaves `pc` and memory alone whenever it stops. -/
theorem stepKeepsInvariant : Obligations.StepKeepsInvariant :=
  fun _ _ => step_inv

/-- Settles O12: PRN completes by emitting its slot, which the auto-advance leaves as it is. -/
theorem prnEmitsRegister : Obligations.PrnEmitsRegister := by
  refine ⟨fun a b => ⟨decode_opcodeOf .prn a b, rfl⟩, fun s a => ?_,
    fun s a h => faults_of_missing (missing_of_accessed rfl h)⟩
  have hc : Completes (.prn (regByte a)) s _ := ⟨a, rfl, rfl⟩
  exact ⟨_, exec_of_completes hc, rfl, rfl, advancePc_opcodeOf_toNat _ .prn, completes_sameRegs hc, fun _ => rfl⟩

/-- Settles O13: HLT only sets the latch, and a latch off Running has no step. -/
theorem hltStopsInPlace : Obligations.HltStopsInPlace := by
  refine ⟨fun a b => ⟨decode_opcodeOf .hlt a b, rfl⟩, fun s => ?_⟩
  have hc : Completes .hlt s (setHalted s) := rfl
  have hrun : (setHalted s).run ≠ .running := by simp
  exact ⟨_, exec_of_completes hc, setHalted_run s, setHalted_pc s, setHalted_out s, completes_sameRegs hc,
    memRead_setHalted s, quiescent_of_not_running hrun⟩

end Sys2Proof.Machine
end

section
/-! O17, O18, O19, O20 and O21: which faults a cycle raises, and what a faulting cycle leaves (60_exceptions.md R171 to R178). -/

namespace Sys2Proof.Machine

/-! ## The faults of one cycle -/

/-- The fault that a cycle from `s` raises: InvalidOpcode on a byte that is no opcode (R171), else InvalidRegister on the first
accessed operand byte that names no register (R172). -/
inductive Raises (s : State) : FaultCause → Prop where
  | invalidOpcode (hnone : decodeOpcode (memRead s s.pc) = none) :
    Raises s (.invalidOpcode s.pc (memRead s s.pc))
  | invalidRegister {m : Mnemonic} {k : Byte} (hm : memRead s s.pc = opcodeOf m)
    (hk : missing (instrOf m (memRead s (s.pc + 1)) (memRead s (s.pc + 2))) s = some k) :
    Raises s (.invalidRegister s.pc (memRead s s.pc) k)

/-- A running machine takes the fault its cycle raises. -/
theorem step_of_raises {s : State} {cause : FaultCause} (hrun : s.run = .running) (h : Raises s cause) :
    step s = .next (raiseFault s cause) := by
  cases h with
  | invalidOpcode hnone => exact step_of_invalidOpcode hrun hnone
  | invalidRegister hm hk => rw [step_of_opcode hrun hm, exec_of_missing hk, mnemonicOf_instrOf, hm]

/-- A completed cycle of a running machine raised nothing. -/
theorem not_faulted_of_completes {i : Instr} {s t : State} (hrun : s.run = .running) (h : Completes i s t)
    (cause : FaultCause) : t.run ≠ .faulted cause := by
  obtain hhalt | hsame := completes_run h
  · simp [hhalt]
  · simp [hsame, hrun]

/-- R173, R178: a cycle that ends Faulted ran from Running, raised the fault the latch records, and changed nothing else. -/
theorem raises_of_step {s t : State} {cause : FaultCause} (h : step s = .next t) (hf : t.run = .faulted cause) :
    s.run = .running ∧ Raises s cause ∧ t = raiseFault s cause := by
  obtain ⟨hrun, ⟨m, hm, he⟩ | ⟨hnone, rfl⟩⟩ := step_cases h
  · obtain ⟨k, hk, rfl⟩ | ⟨-, hc⟩ := exec_inversion he
    · rw [mnemonicOf_instrOf, ← hm] at hf ⊢
      obtain rfl := RunState.faulted.inj hf
      exact ⟨hrun, .invalidRegister hm hk, rfl⟩
    · exact absurd hf (not_faulted_of_completes hrun hc cause)
  · obtain rfl := RunState.faulted.inj hf
    exact ⟨hrun, .invalidOpcode hnone, rfl⟩

/-- The two directions in one: a step ends in exactly the fault that a running machine's cycle raises. -/
theorem step_faulted_iff {s : State} {cause : FaultCause} :
    (∃ t, step s = .next t ∧ t.run = .faulted cause) ↔ s.run = .running ∧ Raises s cause := by
  constructor
  · rintro ⟨t, h, hf⟩
    obtain ⟨hrun, hraises, -⟩ := raises_of_step h hf
    exact ⟨hrun, hraises⟩
  · rintro ⟨hrun, hraises⟩
    exact ⟨_, step_of_raises hrun hraises, rfl⟩

/-- R178: no cycle follows a faulting one. -/
theorem quiescent_of_faulted {t : State} {cause : FaultCause} (h : t.run = .faulted cause) : Quiescent t :=
  quiescent_of_not_running (by simp [h])

/-- Settles O17: a faulting step is `raiseFault` with the fault the cycle raises. -/
theorem faultChangesOnlyTheLatch : Obligations.FaultChangesOnlyTheLatch := by
  intro s t cause h hf
  have hquiet := quiescent_of_faulted hf
  obtain ⟨-, hraises, rfl⟩ := raises_of_step h hf
  refine ⟨rfl, rfl, rfl, rfl, hquiet, ?_⟩
  cases hraises with
  | invalidOpcode => exact .inl rfl
  | invalidRegister => exact .inr ⟨_, rfl⟩

/-- Settles O20: a reset leaves the machine Running, and UnsupportedOperation is none of the faults a cycle raises. -/
theorem unsupportedOperationNeverRaised : Obligations.UnsupportedOperationNeverRaised := by
  refine ⟨fun image s t h => ?_, fun s t h hf => ?_⟩
  · obtain ⟨-, rfl⟩ := hostReset_eq_next h
    rfl
  · obtain ⟨-, hraises, -⟩ := raises_of_step h hf
    cases hraises

/-! ## InvalidOpcode -/

theorem raises_invalidOpcode_iff {s : State} {p ir : Byte} :
    Raises s (.invalidOpcode p ir) ↔ p = s.pc ∧ ir = memRead s s.pc ∧ decodeOpcode ir = none := by
  constructor
  · rintro ⟨hnone⟩
    exact ⟨rfl, rfl, hnone⟩
  · rintro ⟨rfl, rfl, hnone⟩
    exact .invalidOpcode hnone

theorem mem_map_opcodeOf {ir : Byte} : ir ∈ allMnemonics.map opcodeOf ↔ ∃ m, ir = opcodeOf m := by
  simp only [List.mem_map, mem_allMnemonics, true_and, eq_comm]

/-- R67: the lookup refuses exactly the bytes that are not in the opcode map. -/
theorem decodeOpcode_eq_none {ir : Byte} : decodeOpcode ir = none ↔ ir ∉ allMnemonics.map opcodeOf := by
  rw [Option.eq_none_iff_forall_ne_some, mem_map_opcodeOf, not_exists]
  exact forall_congr' fun m => not_congr decodeOpcode_eq_some

/-- Settles O18: the 13 listed bytes are the opcode map's. -/
theorem invalidOpcodeExactlyWhen : Obligations.InvalidOpcodeExactlyWhen := by
  intro s p ir
  rw [step_faulted_iff, raises_invalidOpcode_iff, decodeOpcode_eq_none]
  rfl

/-! ## InvalidRegister -/

theorem raises_invalidRegister_iff {s : State} {p ir k : Byte} :
    Raises s (.invalidRegister p ir k) ↔ p = s.pc ∧ ir = memRead s s.pc ∧
      ∃ m, ir = opcodeOf m ∧ missing (instrOf m (memRead s (s.pc + 1)) (memRead s (s.pc + 2))) s = some k := by
  constructor
  · rintro (_ | ⟨hm, hk⟩)
    exact ⟨rfl, rfl, _, hm, hk⟩
  · rintro ⟨rfl, rfl, m, hm, hk⟩
    exact .invalidRegister hm hk

/-- R65, R172: the instruction of opcode `ir` accesses the register its first operand byte names. -/
def AccessesFirst (s : State) (ir : Byte) : Prop :=
  ir ∈ ([0x45, 0x46, 0x47, 0x50, 0x54, 0x82, 0xA0, 0xA2, 0xA7] : List Byte) ∨
    (ir = 0x55 ∧ fl s = 1) ∨ (ir = 0x56 ∧ (fl s = 2 ∨ fl s = 4))

/-- R65, R172: the instruction of opcode `ir` has a second register operand. -/
def AccessesSecond (ir : Byte) : Prop :=
  ir ∈ ([0xA0, 0xA2, 0xA7] : List Byte)

theorem accessesFirst_of_accessesSecond {s : State} {ir : Byte} (h : AccessesSecond ir) : AccessesFirst s ir :=
  .inl (List.mem_append_right [0x45, 0x46, 0x47, 0x50, 0x54, 0x82] h)

/-- Only opcode bytes access a register. -/
theorem exists_opcodeOf_of_accessesFirst {s : State} {ir : Byte} (h : AccessesFirst s ir) : ∃ m, ir = opcodeOf m := by
  obtain h | ⟨h, -⟩ | ⟨h, -⟩ := h
  · have hsub : ([0x45, 0x46, 0x47, 0x50, 0x54, 0x82, 0xA0, 0xA2, 0xA7] : List Byte) ⊆ allMnemonics.map opcodeOf := by
      decide
    exact mem_map_opcodeOf.mp (hsub h)
  · exact ⟨.jeq, h⟩
  · exact ⟨.jne, h⟩

theorem accessesFirst_jeq_iff {s : State} : AccessesFirst s (opcodeOf .jeq) ↔ fl s = 1 := by
  simp [AccessesFirst, opcodeOf]

theorem accessesFirst_jne_iff {s : State} : AccessesFirst s (opcodeOf .jne) ↔ fl s = 2 ∨ fl s = 4 := by
  simp [AccessesFirst, opcodeOf]

theorem accessesSecond_opcodeOf_iff {m : Mnemonic} :
    AccessesSecond (opcodeOf m) ↔ m ∈ [Mnemonic.add, .mult, .cmp] :=
  List.mem_map_of_injective (l := [Mnemonic.add, .mult, .cmp]) opcodeOf_injective

/-- The operand bytes an instruction accesses, by its opcode byte: none, the first, or both. -/
theorem accessed_instrOf_cases (m : Mnemonic) (a b : Byte) (s : State) :
    (accessed (instrOf m a b) s = [] ∧ ¬AccessesFirst s (opcodeOf m) ∧ ¬AccessesSecond (opcodeOf m)) ∨
      (accessed (instrOf m a b) s = [a] ∧ AccessesFirst s (opcodeOf m) ∧ ¬AccessesSecond (opcodeOf m)) ∨
      (accessed (instrOf m a b) s = [a, b] ∧ AccessesFirst s (opcodeOf m) ∧ AccessesSecond (opcodeOf m)) := by
  rw [accessesSecond_opcodeOf_iff]
  cases m with
  | hlt | ret => exact .inl ⟨rfl, by simp [AccessesFirst, opcodeOf], by decide⟩
  | push | pop | prn | call | jmp | ldi => exact .inr (.inl ⟨rfl, .inl (by decide), by decide⟩)
  | add | mult | cmp => exact .inr (.inr ⟨rfl, .inl (by decide), by decide⟩)
  | jeq =>
    rw [accessesFirst_jeq_iff]
    by_cases h : fl s = 1
    · exact .inr (.inl ⟨accessed_jeq_of_taken a h, h, by decide⟩)
    · exact .inl ⟨if_neg (mt jeqTaken_iff.mp h), h, by decide⟩
  | jne =>
    rw [accessesFirst_jne_iff]
    by_cases h : fl s = 2 ∨ fl s = 4
    · exact .inr (.inl ⟨accessed_jne_of_taken a h, h, by decide⟩)
    · exact .inl ⟨if_neg (mt jneTaken_iff.mp h), h, by decide⟩

/-- An instruction that accesses one operand byte misses that byte's register or none. -/
theorem missing_eq_some_iff_of_single {i : Instr} {s : State} {a k : Byte} (hacc : accessed i s = [a]) :
    missing i s = some k ↔ 7 < k.toNat ∧ k = a := by
  simp only [missing, hacc, List.find?_cons_eq_some, List.find?_nil, decide_eq_true_eq]
  grind

/-- R177: of two accessed operand bytes the second is checked only when the first names a register. -/
theorem missing_eq_some_iff_of_pair {i : Instr} {s : State} {a b k : Byte} (hacc : accessed i s = [a, b]) :
    missing i s = some k ↔ 7 < k.toNat ∧ (k = a ∨ (k = b ∧ a.toNat ≤ 7)) := by
  simp only [missing, hacc, List.find?_cons_eq_some, List.find?_nil, decide_eq_true_eq]
  grind

/-- R172, R177: the byte an instruction reports is its first operand, or its second when the first names a register. -/
theorem missing_instrOf_iff {m : Mnemonic} {a b k : Byte} {s : State} :
    missing (instrOf m a b) s = some k ↔ 7 < k.toNat ∧
      ((k = a ∧ AccessesFirst s (opcodeOf m)) ∨ (k = b ∧ a.toNat ≤ 7 ∧ AccessesSecond (opcodeOf m))) := by
  obtain ⟨hacc, hfirst, hsecond⟩ | ⟨hacc, hfirst, hsecond⟩ | ⟨hacc, hfirst, hsecond⟩ := accessed_instrOf_cases m a b s
  · simp [missing, hacc, hfirst, hsecond]
  · simp [missing_eq_some_iff_of_single hacc, hfirst, hsecond]
  · simp [missing_eq_some_iff_of_pair hacc, hfirst, hsecond]

/-- Settles O19: an instruction reports its first operand, or its second, exactly when it accesses it and it is above 7. -/
theorem invalidRegisterExactlyWhen : Obligations.InvalidRegisterExactlyWhen := by
  intro s p ir operand
  rw [step_faulted_iff, raises_invalidRegister_iff]
  refine and_congr_right fun _ => and_congr_right fun _ => and_congr_right fun _ => ?_
  constructor
  · rintro ⟨m, rfl, hk⟩
    exact missing_instrOf_iff.mp hk
  · rintro ⟨h7, hoperand⟩
    have hfirst : AccessesFirst s ir := by
      obtain ⟨-, hfirst⟩ | ⟨-, -, hsecond⟩ := hoperand
      · exact hfirst
      · exact accessesFirst_of_accessesSecond hsecond
    obtain ⟨m, rfl⟩ := exists_opcodeOf_of_accessesFirst hfirst
    exact ⟨m, rfl, missing_instrOf_iff.mpr ⟨h7, hoperand⟩⟩

/-! ## The order of the checks -/

/-- Settles O21: an invalid opcode byte is refused before any operand, and the two clauses of InvalidRegister for ADD, MULT and CMP
say which operand is reported. -/
theorem faultPriority : Obligations.FaultPriority := by
  refine ⟨fun s hrun hnone => ⟨_, step_of_invalidOpcode hrun hnone, rfl⟩, fun s hrun hop ha => ?_,
    fun s hrun hop ha hb => ?_, fun s t cause _ => quiescent_of_faulted⟩
  · exact (invalidRegisterExactlyWhen _ _ _ _).mpr
      ⟨hrun, rfl, rfl, ha, .inl ⟨rfl, accessesFirst_of_accessesSecond hop⟩⟩
  · exact (invalidRegisterExactlyWhen _ _ _ _).mpr ⟨hrun, rfl, rfl, hb, .inr ⟨rfl, ha, hop⟩⟩

end Sys2Proof.Machine
end

section
/-! O40: the invariant after a reset with an image (70_reset_and_hazards.md R201). -/

namespace Sys2Proof.Machine

/-- Settles O40: a reset that answers accepted its image and gives `loadedReset`, whose memory is canonical because every placed
byte keeps it so, and whose latch is running. -/
theorem loadedResetMeetsInvariant : Obligations.LoadedResetMeetsInvariant := by
  intro image s t hreset
  obtain ⟨hlen, rfl⟩ := hostReset_eq_next hreset
  exact loadedReset_inv hlen

end Sys2Proof.Machine
end
